-- ==== Sys2Proof/Word.lean ====
section
/-! DEFINITION. The word types of the GSM 06.10 frame decoder (spec/10_state.md, spec/00_scope.md). -/

namespace Sys2Proof

/-- One byte of the frame input `FRAME_IN` (R41, R60). -/
abbrev Byte := BitVec 8

/-- One 16-bit signed sample of `EXC` or `PCM`, and the type of `MSR` (R24, R25, R30, R40). -/
abbrev Sample := BitVec 16

/-- One signed word of `W_ACC` = 32 bits: a `LAR` value, a reflection coefficient, a lattice memory
word (R7, R21, R23, R26). -/
abbrev Word := BitVec 32

/-- The 1-bit slot index `LAR_SLOT` (R22). -/
abbrev Slot := BitVec 1

end Sys2Proof
end

