-- ==== Sys2Proof/Config.lean ====
section
/-! DEFINITION. What an implementation fixes (the parameters of rules R7 to R11) and the free values:
constants with no body, of which nothing can be proved but that they are values of their type. -/

namespace Sys2Proof

/-- `PAD_LEAD`, restricted to 0 or 4 (R8). -/
inductive PadLead where
  | zero
  | four
  deriving DecidableEq, Repr, Inhabited

/-- The number of padding bits (R8). -/
def PadLead.bits : PadLead → Nat
  | .zero => 0
  | .four => 4

/-- One row of `APCM_BITS`: a residual width 0..3 for each subframe and pulse (R11, D9). -/
abbrev WidthTable := Vector (Vector (Fin 4) 13) 4

/-- A value of `CFG_MODE` (R10, R29): the one named mode `MODE_FR`, or another mode, named by its own row
of `APCM_BITS`.  Naming the other modes by their rows makes the parameter `APCM_BITS` universally
quantified wherever a mode is (U6; log entry 4). -/
inductive Mode where
  | fr
  | other (widths : WidthTable)
  deriving DecidableEq, Repr, Inhabited

/-- A level index, the column of a `DEQUANT_TAB` row (R11, R117). -/
abbrev Level := Fin 8

/-- `REQUANT_TAB`: one row for each residual width w, of 2^w level indices (R11). -/
structure RequantTab where
  w0 : Vector Level 1
  w1 : Vector Level 2
  w2 : Vector Level 4
  w3 : Vector Level 8
  deriving DecidableEq, Repr, Inhabited

/-- The read-only parameters of the block, as the table ports present them (R8, R11, R135).  No
instruction writes them. -/
structure Params where
  padLead    : PadLead
  ltpGainTab : Vector (BitVec 16) 4
  dequantTab : Vector (Vector Sample 8) 64
  requantTab : RequantTab
  deriving DecidableEq, Repr, Inhabited

/-- FREE VALUE (log entry 6). The contents of `LAR` when a session ends or on a hard reset: unspecified
(R161, U4). -/
opaque Config.freeLar : Nat → Vector (Vector Word 8) 2

/-- FREE VALUE (log entry 6). The content of `LAR_SLOT` in Idle (R161, U4). -/
opaque Config.freeLarSlot : Nat → Slot

/-- FREE VALUE (log entry 6). The contents of `V` in Idle (R161, U4). -/
opaque Config.freeV : Nat → Vector Word 9

/-- FREE VALUE (log entry 6). The contents of `EXC` in Idle (R161, U4). -/
opaque Config.freeExc : Nat → Vector Sample 280

/-- FREE VALUE (log entry 6). The content of `MSR` in Idle (R161, U4). -/
opaque Config.freeMsr : Nat → Sample

/-- FREE VALUE (log entry 6). The content of `CFG_MODE` in Idle (R29, R161, U4). -/
opaque Config.freeMode : Nat → Mode

/-- FREE VALUE (log entry 7). The contents of `RRP` between commands (R26, R33, U13). -/
opaque Config.freeRrp : Nat → Vector Word 8

/-- FREE VALUE (log entry 7). The content of `BITPOS` between commands (R27, R33, U13). -/
opaque Config.freeBitpos : Nat → Nat

/-- FREE VALUE (log entry 7). The content of the model's own result register between commands (U13). -/
opaque Config.freeRet : Nat → Int

/-- FREE VALUE (log entry 5). What `reflect` gives for the one word whose magnitude is not
representable, -2^31 (R97, U10). -/
opaque Config.freeReflect : Word → Word

end Sys2Proof
end

