-- ==== Sys2Proof/Syntax.lean ====
section
/-! DEFINITION. The instructions: one constructor for each row of spec/opcode_table.json; the frame
record FRAME33 with its fields; and what the host presents at the command port (R72, R135). -/

namespace Sys2Proof

/-- The operations of the block: three commands a host can issue, ten micro-operations that
`DECODE_FRAME` sequences, five arithmetic and reader primitives (R72). -/
inductive Instr where
  /-- `DECODE_FRAME` with `FRAME_IN`; `FRAME_LEN` is the length of the list (R125). -/
  | decodeFrame (frame : List Byte)
  /-- `SESSION_OPEN(mode)` (R160). -/
  | sessionOpen (mode : Mode)
  /-- `SESSION_CLOSE` (R162). -/
  | sessionClose
  /-- `LARDEC`: its operands are read from the frame (R90). -/
  | lardec
  /-- `REFLECT(x)` (R95). -/
  | reflect (x : Word)
  /-- `LARBLEND(r)`, r one of the four sample ranges (R100). -/
  | larblend (r : Fin 4)
  /-- `LATSTEP(x)`, x an excitation sample (R102). -/
  | latstep (x : Sample)
  /-- `STSYN` (R103). -/
  | stsyn
  /-- `LTSYN(k, L, g)`: subframe, lag, unsigned gain (R111). -/
  | ltsyn (k : Fin 4) (lag : Nat) (g : BitVec 16)
  /-- `APCMADD(k, o)`: subframe, offset; the other operands are read from the frame (R116). -/
  | apcmadd (k : Fin 4) (o : BitVec 2)
  /-- `HISTSHIFT` (R130). -/
  | histshift
  /-- `DEEMPH` (R120). -/
  | deemph
  /-- `LARTOGGLE` (R131). -/
  | lartoggle
  /-- `round_mul(a, b)` (R80). -/
  | roundMul (a b : Int)
  /-- `clip16(x)` (R81). -/
  | clip16 (x : Int)
  /-- `wrap16(x)` (R82). -/
  | wrap16 (x : Int)
  /-- `wrap32(x)` (R83). -/
  | wrap32 (x : Int)
  /-- `GetBits(n)` (R62). -/
  | getBits (n : Nat)
  deriving DecidableEq, Repr

/-- The fields of one subframe record of the frame, in frame order (R64). -/
structure Subframe where
  lag    : Nat
  gain   : Nat
  off    : Nat
  maxIdx : Nat
  x      : Vector Nat 13
  deriving DecidableEq, Repr

/-- The fields of a frame: the padding, the eight LAR indices, four subframe records (R60, R63, R64).
Every field is the unsigned integer `GetBits` returns (R67). -/
structure Frame where
  pad  : Nat
  larc : Vector Nat 8
  sub  : Vector Subframe 4
  deriving DecidableEq, Repr

/-- The value on the `CMD` port (R135). -/
inductive Cmd where
  | sessionOpen
  | decodeFrame
  | sessionClose
  deriving DecidableEq, Repr

/-- One command as the host presents it: `CMD`, `CMD_MODE`, and `FRAME_IN` with its length (R135). -/
structure Request where
  cmd     : Cmd
  cmdMode : Mode
  frameIn : List Byte
  deriving DecidableEq, Repr

/-- What the host can do to the block: issue a command, or pulse the hard reset input (R135, R161). -/
inductive Input where
  | command (r : Request)
  | hardReset
  deriving DecidableEq, Repr

end Sys2Proof
end

