-- ==== Sys2Proof/Machine/Layout.lean ====
section
/-! DEFINITION. The layout of a frame: the width of each field, in frame order, and the payload length
(R60, R63 to R66). -/

namespace Sys2Proof

/-- The width of `LARC[i]`: 6,6,5,5,4,4,3,3 (R63). -/
def larWidth (i : Fin 8) : Nat :=
  #v[6, 6, 5, 5, 4, 4, 3, 3][i]

/-- `APCM_BITS[mode][k][j]`: 3 everywhere in `MODE_FR` (R65, D8); in another mode, what its row says
(R66). -/
def apcmBits (m : Mode) (k : Fin 4) (j : Fin 13) : Fin 4 :=
  match m with
  | .fr => 3
  | .other widths => widths[k][j]

/-- The widths of the fields of subframe record k: lag, gain, offset, maximum-amplitude index, then the
thirteen residual fields (R64). -/
def subWidths (m : Mode) (k : Fin 4) : List Nat :=
  [7, 2, 2, 6] ++ (List.finRange 13).map fun j => (apcmBits m k j).val

/-- The widths of all fields of the payload, in frame order (R63, R64). -/
def payloadWidths (m : Mode) : List Nat :=
  (List.finRange 8).map larWidth ++ (List.finRange 4).flatMap (subWidths m)

/-- The widths of all fields of a frame: `PAD_LEAD` padding bits come first (R60). -/
def fieldWidths (p : PadLead) (m : Mode) : List Nat :=
  p.bits :: payloadWidths m

/-- `PAYLOAD_BITS(mode)` as rule R66 writes it. -/
def payloadBits (m : Mode) : Nat :=
  36 + ((List.finRange 4).map fun k => 17 + ((List.finRange 13).map fun j => (apcmBits m k j).val).sum).sum

/-- The number of input bits a `DECODE_FRAME` needs (R142). -/
def neededBits (p : PadLead) (m : Mode) : Nat :=
  p.bits + payloadBits m

end Sys2Proof
end

