-- ==== Sys2Proof/WellFormed.lean ====
section
/-! DEFINITION. Well-formedness: the operand ranges of the instructions, the field ranges of a frame,
the conditions decision D9 puts on the tables. -/

namespace Sys2Proof

/-- The operand ranges the spec gives: `LTSYN` takes a clamped lag 40..120 (R111) and a gain at most
32767 (R112, D9); `GetBits` takes a width at most 7 (R62).  Every other operand's type is its range. -/
def Instr.wf : Instr → Bool
  | .decodeFrame _ => true
  | .sessionOpen _ => true
  | .sessionClose => true
  | .lardec => true
  | .reflect _ => true
  | .larblend _ => true
  | .latstep _ => true
  | .stsyn => true
  | .ltsyn _ lag g => decide (40 ≤ lag) && decide (lag ≤ 120) && decide (g.toNat ≤ 32767)
  | .apcmadd _ _ => true
  | .histshift => true
  | .deemph => true
  | .lartoggle => true
  | .roundMul _ _ => true
  | .clip16 _ => true
  | .wrap16 _ => true
  | .wrap32 _ => true
  | .getBits n => decide (n ≤ 7)

/-- Each field of a subframe record fits its width (R64, R66). -/
def Subframe.wf (m : Mode) (k : Fin 4) (f : Subframe) : Bool :=
  decide (f.lag < 2 ^ 7) && decide (f.gain < 2 ^ 2) && decide (f.off < 2 ^ 2) &&
    decide (f.maxIdx < 2 ^ 6) && (List.finRange 13).all fun j => decide (f.x[j] < 2 ^ (apcmBits m k j).val)

/-- Each field of a frame fits its width (R60, R63, R64). -/
def Frame.wf (p : PadLead) (m : Mode) (f : Frame) : Bool :=
  decide (f.pad < 2 ^ p.bits) && ((List.finRange 8).all fun i => decide (f.larc[i] < 2 ^ larWidth i)) &&
    (List.finRange 4).all fun k => f.sub[k].wf m k

/-- Decision D9: every gain entry is at most 32767, and `REQUANT_TAB[3]` is the identity.  The shapes and
element widths are the types'. -/
def Params.wf (q : Params) : Bool :=
  ((List.finRange 4).all fun i => decide (q.ltpGainTab[i].toNat ≤ 32767)) &&
    (List.finRange 8).all fun x => decide (q.requantTab.w3[x] = x)

end Sys2Proof
end

