-- ==== Sys2Proof/Decode.lean ====
section
/-! DEFINITION. Decoding: the bit reader over the bytes of `FRAME_IN` (R41, R61, R62), the fields of a
frame read from its bytes (R63 to R67), and the instruction read from the command port (R72); then the
encoders, written from the same layout. -/

namespace Sys2Proof

/-- Frame bit q: bit `7 - (q mod 8)` of byte `floor(q / 8)` (R41); none where the input has no such
bit. -/
def frameBit (bytes : List Byte) (q : Nat) : Option Bool :=
  bytes[q / 8]?.map fun b => b.getLsbD (7 - q % 8)

/-- The loop of `GetBits`: n bits from frame bit p on, most significant first (R62); none where fewer
than n bits remain (R61).  A width of 0 reads nothing and gives 0. -/
def readBits (bytes : List Byte) (p : Nat) : Nat → Option Nat
  | 0 => some 0
  | n + 1 => (readBits bytes p n).bind fun v => (frameBit bytes (p + n)).map fun b => 2 * v + b.toNat

/-- Fields of the given widths, one after another from frame bit p on (R43, R63, R64). -/
def readFields (bytes : List Byte) : Nat → List Nat → Option (List Nat)
  | _, [] => some []
  | p, w :: ws => (readBits bytes p w).bind fun v => (readFields bytes (p + w) ws).map fun vs => v :: vs

/-- The subframe record whose fields stand in frame order in a list of 17 values. -/
def subframeOfValues (l : List Nat) : Subframe where
  lag := l.getD 0 0
  gain := l.getD 1 0
  off := l.getD 2 0
  maxIdx := l.getD 3 0
  x := Vector.ofFn fun j => l.getD (4 + j) 0

/-- The frame whose fields stand in frame order in a list of 77 values. -/
def frameOfValues (l : List Nat) : Frame where
  pad := l.getD 0 0
  larc := Vector.ofFn fun i => l.getD (1 + i) 0
  sub := Vector.ofFn fun k => subframeOfValues (l.drop (9 + 17 * k))

/-- Why bytes are no frame: there are too few of them (R140).  No pattern of bits is refused (R68). -/
inductive DecodeError where
  | truncatedInput
  deriving DecidableEq, Repr

/-- The fields of the frame that the bytes hold in the given mode.  Bits after the last payload bit are
ignored (R69). -/
def decodeFrame (p : PadLead) (m : Mode) (bytes : List Byte) : Except DecodeError Frame :=
  match readFields bytes 0 (fieldWidths p m) with
  | some l => .ok (frameOfValues l)
  | none => .error .truncatedInput

/-- The instruction at the command port: `CMD` selects it, no bit of a frame does (R60, R72). -/
def decode (r : Request) : Instr :=
  match r.cmd with
  | .sessionOpen => .sessionOpen r.cmdMode
  | .decodeFrame => .decodeFrame r.frameIn
  | .sessionClose => .sessionClose

/-- The low n bits of v, most significant first (R41). -/
def bitsOf : Nat → Nat → List Bool
  | 0, _ => []
  | n + 1, v => bitsOf n (v / 2) ++ [v % 2 == 1]

/-- The unsigned integer whose bits the list holds, most significant first. -/
def natOfBits (l : List Bool) : Nat :=
  l.foldl (fun v b => 2 * v + b.toNat) 0

/-- Bits cut into bytes of 8, first bit = bit 7 (R71); a last byte that is not full is filled with
zeros. -/
def packBytes (bits : List Bool) : List Byte :=
  (List.range ((bits.length + 7) / 8)).map fun i =>
    BitVec.ofNat 8 (natOfBits ((List.range 8).map fun j => bits.getD (8 * i + j) false))

/-- The values of the fields of a subframe record, in frame order (R64). -/
def Subframe.values (f : Subframe) : List Nat :=
  [f.lag, f.gain, f.off, f.maxIdx] ++ f.x.toList

/-- The values of the fields of a frame, in frame order (R60, R63, R64). -/
def Frame.values (f : Frame) : List Nat :=
  f.pad :: (f.larc.toList ++ f.sub.toList.flatMap Subframe.values)

/-- The bits of a frame: its fields concatenated, each most significant bit first (R71). -/
def frameBits (p : PadLead) (m : Mode) (f : Frame) : List Bool :=
  ((fieldWidths p m).zip f.values).flatMap fun wv => bitsOf wv.1 wv.2

/-- The bytes of a frame (R60, R71). -/
def encodeFrame (p : PadLead) (m : Mode) (f : Frame) : List Byte :=
  packBytes (frameBits p m f)

/-- What the host presents at the command port to issue an instruction (R72, R135); none for the
micro-operations and primitives, which are "not selectable from outside" and have no encoding.  A port
that the command does not use carries a fixed value. -/
def encode : Instr → Option Request
  | .decodeFrame frame => some ⟨.decodeFrame, .fr, frame⟩
  | .sessionOpen mode => some ⟨.sessionOpen, mode, []⟩
  | .sessionClose => some ⟨.sessionClose, .fr, []⟩
  | .lardec => none
  | .reflect _ => none
  | .larblend _ => none
  | .latstep _ => none
  | .stsyn => none
  | .ltsyn _ _ _ => none
  | .apcmadd _ _ => none
  | .histshift => none
  | .deemph => none
  | .lartoggle => none
  | .roundMul _ _ => none
  | .clip16 _ => none
  | .wrap16 _ => none
  | .wrap32 _ => none
  | .getBits _ => none

/-- n bytes of w, the first from its least significant bits. -/
def bytesOfNat : Nat → Nat → List Byte
  | 0, _ => []
  | n + 1, w => BitVec.ofNat 8 w :: bytesOfNat n (w / 256)

/-- The command that an opcode-table word stands for: the only row with bits is `DECODE_FRAME`'s
33-byte frame, whose first byte is the word's bits 7..0; nbits counts whole bytes, and every bit of the
frame above them is 0. -/
def tableRequest (nbits w : Nat) : Request where
  cmd := .decodeFrame
  cmdMode := .fr
  frameIn := bytesOfNat (nbits / 8) w ++ List.replicate (33 - nbits / 8) 0

/-- The instruction the decoder reads from an opcode-table word.  A word of no bits is no instruction:
the other commands are selected by the command port and the micro-operations have no encoding (R72). -/
def decodeTableWord (nbits w : Nat) : Option Instr :=
  if nbits = 0 then none else some (decode (tableRequest nbits w))

end Sys2Proof
end

