-- ==== Sys2Proof/Machine/Arith.lean ====
section
/-! DEFINITION. The integer arithmetic every rule uses (R12, R13, R80, R84).  All of it is exact. -/

namespace Sys2Proof.Machine

/-- `a >> n`: `floor(a / 2^n)` for every sign of a (R13). -/
def asr (a : Int) (n : Nat) : Int :=
  a / 2 ^ n

/-- `a << n`: `a * 2^n`, exact, also for negative a (R13). -/
def shl (a : Int) (n : Nat) : Int :=
  a * 2 ^ n

/-- `round_mul(a, b) = (a*b + 16384) >> 15` (R80). -/
def roundMul (a b : Int) : Int :=
  asr (a * b + 16384) 15

/-- `a & ~7`: `a - (a mod 8)` with mod giving 0..7 (R13, R121). -/
def mask7 (a : Int) : Int :=
  a - a % 8

/-- `clamp(x, lo, hi)` (R13). -/
def clamp (x lo hi : Nat) : Nat :=
  if x < lo then lo else if x > hi then hi else x

end Sys2Proof.Machine
end

