-- ==== Sys2Proof/Machine/Flags.lean ====
section
/-! DEFINITION. Saturation and narrowing.  The block has no flags: saturation, narrowing and clamping
are silent (R28), so a value outside its destination shows only in the value stored. -/

namespace Sys2Proof.Machine

/-- `clip16(x)`: saturate to -32768..32767 (R81). -/
def clip16 (x : Int) : Int :=
  if x < -32768 then -32768 else if x > 32767 then 32767 else x

/-- `wrap16(x) = ((x + 32768) mod 65536) - 32768` (R82). -/
def wrap16 (x : Int) : Int :=
  (x + 32768) % 65536 - 32768

/-- `wrap32(x) = ((x + 2^31) mod 2^32) - 2^31` (R83). -/
def wrap32 (x : Int) : Int :=
  (x + 2 ^ 31) % 2 ^ 32 - 2 ^ 31

/-- A 16-bit register or sample holding the value of x's low 16 bits: the store of `wrap16(x)`, and of
x itself where x fits (R24, R25, R82). -/
def toSample (x : Int) : Sample :=
  BitVec.ofInt 16 x

/-- A `W_ACC`-bit word holding the value of x's low 32 bits: the store of `wrap32(x)`, and of x itself
where x fits (R7, R83). -/
def toWord (x : Int) : Word :=
  BitVec.ofInt 32 x

end Sys2Proof.Machine
end

