-- ==== Sys2Proof/Machine/Tables.lean ====
section
/-! DEFINITION. The candidate contents of the constant tables (spec/93_implementation_defined.md G1 to
G4, "from general knowledge, not in source"; log entry 3, PRESUMED).  They are what the table ports hold
in `State.reset` and nothing else: every meaning reads the tables of the state it is given. -/

namespace Sys2Proof.Machine

/-- One row of `DEQUANT_TAB` from its eight signed entries. -/
def dequantRow (a b c d e f g h : Int) : Vector Sample 8 :=
  #v[toSample a, toSample b, toSample c, toSample d, toSample e, toSample f, toSample g, toSample h]

/-- Rows 0 to 15 of the candidate `DEQUANT_TAB` (G3). -/
def dequantRows0 : Vector (Vector Sample 8) 16 := #v[
  dequantRow (-28) (-20) (-12) (-4) 4 12 20 28,
  dequantRow (-56) (-40) (-24) (-8) 8 24 40 56,
  dequantRow (-84) (-60) (-36) (-12) 12 36 60 84,
  dequantRow (-112) (-80) (-48) (-16) 16 48 80 112,
  dequantRow (-140) (-100) (-60) (-20) 20 60 100 140,
  dequantRow (-168) (-120) (-72) (-24) 24 72 120 168,
  dequantRow (-196) (-140) (-84) (-28) 28 84 140 196,
  dequantRow (-224) (-160) (-96) (-32) 32 96 160 224,
  dequantRow (-252) (-180) (-108) (-36) 36 108 180 252,
  dequantRow (-280) (-200) (-120) (-40) 40 120 200 280,
  dequantRow (-308) (-220) (-132) (-44) 44 132 220 308,
  dequantRow (-336) (-240) (-144) (-48) 48 144 240 336,
  dequantRow (-364) (-260) (-156) (-52) 52 156 260 364,
  dequantRow (-392) (-280) (-168) (-56) 56 168 280 392,
  dequantRow (-420) (-300) (-180) (-60) 60 180 300 420,
  dequantRow (-448) (-320) (-192) (-64) 64 192 320 448]

/-- Rows 16 to 31 of the candidate `DEQUANT_TAB` (G3). -/
def dequantRows1 : Vector (Vector Sample 8) 16 := #v[
  dequantRow (-504) (-360) (-216) (-72) 72 216 360 504,
  dequantRow (-560) (-400) (-240) (-80) 80 240 400 560,
  dequantRow (-616) (-440) (-264) (-88) 88 264 440 616,
  dequantRow (-672) (-480) (-288) (-96) 96 288 480 672,
  dequantRow (-728) (-520) (-312) (-104) 104 312 520 728,
  dequantRow (-784) (-560) (-336) (-112) 112 336 560 784,
  dequantRow (-840) (-600) (-360) (-120) 120 360 600 840,
  dequantRow (-896) (-640) (-384) (-128) 128 384 640 896,
  dequantRow (-1008) (-720) (-432) (-144) 144 432 720 1008,
  dequantRow (-1120) (-800) (-480) (-160) 160 480 800 1120,
  dequantRow (-1232) (-880) (-528) (-176) 176 528 880 1232,
  dequantRow (-1344) (-960) (-576) (-192) 192 576 960 1344,
  dequantRow (-1456) (-1040) (-624) (-208) 208 624 1040 1456,
  dequantRow (-1568) (-1120) (-672) (-224) 224 672 1120 1568,
  dequantRow (-1680) (-1200) (-720) (-240) 240 720 1200 1680,
  dequantRow (-1792) (-1280) (-768) (-256) 256 768 1280 1792]

/-- Rows 32 to 47 of the candidate `DEQUANT_TAB` (G3). -/
def dequantRows2 : Vector (Vector Sample 8) 16 := #v[
  dequantRow (-2016) (-1440) (-864) (-288) 288 864 1440 2016,
  dequantRow (-2240) (-1600) (-960) (-320) 320 960 1600 2240,
  dequantRow (-2464) (-1760) (-1056) (-352) 352 1056 1760 2464,
  dequantRow (-2688) (-1920) (-1152) (-384) 384 1152 1920 2688,
  dequantRow (-2912) (-2080) (-1248) (-416) 416 1248 2080 2912,
  dequantRow (-3136) (-2240) (-1344) (-448) 448 1344 2240 3136,
  dequantRow (-3360) (-2400) (-1440) (-480) 480 1440 2400 3360,
  dequantRow (-3584) (-2560) (-1536) (-512) 512 1536 2560 3584,
  dequantRow (-4032) (-2880) (-1728) (-576) 576 1728 2880 4032,
  dequantRow (-4480) (-3200) (-1920) (-640) 640 1920 3200 4480,
  dequantRow (-4928) (-3520) (-2112) (-704) 704 2112 3520 4928,
  dequantRow (-5376) (-3840) (-2304) (-768) 768 2304 3840 5376,
  dequantRow (-5824) (-4160) (-2496) (-832) 832 2496 4160 5824,
  dequantRow (-6272) (-4480) (-2688) (-896) 896 2688 4480 6272,
  dequantRow (-6720) (-4800) (-2880) (-960) 960 2880 4800 6720,
  dequantRow (-7168) (-5120) (-3072) (-1024) 1024 3072 5120 7168]

/-- Rows 48 to 63 of the candidate `DEQUANT_TAB` (G3). -/
def dequantRows3 : Vector (Vector Sample 8) 16 := #v[
  dequantRow (-8063) (-5759) (-3456) (-1152) 1152 3456 5760 8064,
  dequantRow (-8959) (-6399) (-3840) (-1280) 1280 3840 6400 8960,
  dequantRow (-9855) (-7039) (-4224) (-1408) 1408 4224 7040 9856,
  dequantRow (-10751) (-7679) (-4608) (-1536) 1536 4608 7680 10752,
  dequantRow (-11647) (-8319) (-4992) (-1664) 1664 4992 8320 11648,
  dequantRow (-12543) (-8959) (-5376) (-1792) 1792 5376 8960 12544,
  dequantRow (-13439) (-9599) (-5760) (-1920) 1920 5760 9600 13440,
  dequantRow (-14335) (-10239) (-6144) (-2048) 2048 6144 10240 14336,
  dequantRow (-16127) (-11519) (-6912) (-2304) 2304 6912 11519 16127,
  dequantRow (-17919) (-12799) (-7680) (-2560) 2560 7680 12799 17919,
  dequantRow (-19711) (-14079) (-8448) (-2816) 2816 8448 14079 19711,
  dequantRow (-21503) (-15359) (-9216) (-3072) 3072 9216 15359 21503,
  dequantRow (-23295) (-16639) (-9984) (-3328) 3328 9984 16639 23295,
  dequantRow (-25087) (-17919) (-10752) (-3584) 3584 10752 17919 25087,
  dequantRow (-26879) (-19199) (-11520) (-3840) 3840 11520 19199 26879,
  dequantRow (-28671) (-20479) (-12288) (-4096) 4096 12288 20479 28671]
/-- The candidate `DEQUANT_TAB` (G3). -/
def dequantCandidate : Vector (Vector Sample 8) 64 :=
  dequantRows0 ++ dequantRows1 ++ dequantRows2 ++ dequantRows3

/-- The candidate `LTP_GAIN_TAB` (G2). -/
def ltpGainCandidate : Vector (BitVec 16) 4 :=
  #v[3277, 11469, 21299, 32767]

/-- The candidate `REQUANT_TAB` (G4): the identity on 3-bit codes; the narrower rows are recalled there
"with low confidence". -/
def requantCandidate : RequantTab where
  w0 := #v[0]
  w1 := #v[0, 7]
  w2 := #v[0, 2, 5, 7]
  w3 := #v[0, 1, 2, 3, 4, 5, 6, 7]

/-- The parameters with `PAD_LEAD` = 4 (R8, G1) and the candidate tables. -/
def paramsCandidate : Params where
  padLead := .four
  ltpGainTab := ltpGainCandidate
  dequantTab := dequantCandidate
  requantTab := requantCandidate

end Sys2Proof.Machine
end

