-- ==== Sys2Proof/Machine/State.lean ====
section
/-! DEFINITION. The machine's state as plain data: the decoder state of rule R20, the working registers
of rules R26 and R27, the ports of rules R30 and R135; the reasons a step can stop; the state after a
hard reset. -/

namespace Sys2Proof.Machine

/-- The orchestrator's state `FSM` (R27, R127). -/
inductive Fsm where
  /-- Pre-stream: no session exists. -/
  | idle
  /-- Between frames. -/
  | ready
  /-- Mid-frame, not observable externally: no step ends in it. -/
  | decoding
  deriving DecidableEq, Repr

/-- The response code `RESP` (R29, R140). -/
inductive Resp where
  | ok
  | truncatedInput
  | noSession
  deriving DecidableEq, Repr

/-- The numeric code of a response in the 2-bit `RESP` (R140, D11). -/
def Resp.code : Resp → BitVec 2
  | .ok => 0
  | .truncatedInput => 1
  | .noSession => 2

/-- The state of one instance (R9).  The session registers are those of rule R20; `rrp`, `bitpos` and
`frameIn` are the working registers a command uses (R26, R27, R30); `pcm`, `resp`, `inputs` and `params`
are the block's ports (R135); `ret` and `freeCount` are the model's own (log entries 8 and 6). -/
structure State where
  /-- `FSM` (R20, R27). -/
  fsm       : Fsm
  /-- `CFG_MODE`, latched by `SESSION_OPEN` (R20, R29). -/
  cfgMode   : Mode
  /-- `LAR[s][i]` (R21). -/
  lar       : Vector (Vector Word 8) 2
  /-- `LAR_SLOT` (R22). -/
  larSlot   : Slot
  /-- `V[0..8]` (R23). -/
  v         : Vector Word 9
  /-- `EXC[0..279]` (R24). -/
  exc       : Vector Sample 280
  /-- `MSR` (R25). -/
  msr       : Sample
  /-- `RRP[0..7]`, working registers (R26). -/
  rrp       : Vector Word 8
  /-- `BITPOS`, the number of payload bits consumed so far (R27). -/
  bitpos    : Nat
  /-- `FRAME_IN`, the frame being decoded; `FRAME_LEN` is its length (R30). -/
  frameIn   : List Byte
  /-- `PCM[0..159]`, the caller's output buffer and the working buffer (R30). -/
  pcm       : Vector Sample 160
  /-- The latest response on the `RESP` port; none before the first (R29, R135). -/
  resp      : Option Resp
  /-- What the host has issued and the block has not yet accepted, oldest first (R50, R135). -/
  inputs    : List Input
  /-- The table ports and `PAD_LEAD` (R8, R11, R135). -/
  params    : Params
  /-- MODEL'S OWN: the value the last primitive or micro-operation returned (log entry 8). -/
  ret       : Int
  /-- MODEL'S OWN: how many free values have been drawn (log entry 6). -/
  freeCount : Nat
  deriving DecidableEq, Repr

/-- The reasons a step ends in a fault: none.  The spec gives no operation a fault: every index is in
range by construction (R47, R48), every pattern decodes (R68), no arithmetic fails (R84, R148), and the
two failure conditions are responses (R140).  No one raises it. -/
inductive Fault where
  deriving DecidableEq, Repr

/-- The reasons a step is refused. -/
inductive Refusal where
  /-- Raised by `exec` alone, for an instruction that has no meaning yet; no arm of this model does.
  Safe: the model stops where the hardware goes on. -/
  | notModelled (mnemonic : String)
  deriving DecidableEq, Repr

/-- The machine right after a hard reset (R161): `FSM` = Idle.  The spec gives no other register a value
there; each is 0 (`CFG_MODE`: `MODE_FR`), a DESIGN CHOICE (log entry 2).  No command has been issued and
no response given.  The table ports hold the candidate tables, PRESUMED (log entry 3). -/
def State.reset : State where
  fsm       := .idle
  cfgMode   := .fr
  lar       := Vector.replicate 2 (Vector.replicate 8 0)
  larSlot   := 0
  v         := Vector.replicate 9 0
  exc       := Vector.replicate 280 0
  msr       := 0
  rrp       := Vector.replicate 8 0
  bitpos    := 0
  frameIn   := []
  pcm       := Vector.replicate 160 0
  resp      := none
  inputs    := []
  params    := paramsCandidate
  ret       := 0
  freeCount := 0

end Sys2Proof.Machine
end

