-- ==== Sys2Proof/Machine/Ops.lean ====
section
/-! DEFINITION. The shared operations: loops, reading and writing the registers, `GetBits` over
`FRAME_IN` and `BITPOS`, answering a command, taking one of the two failure conditions, discarding what
does not survive a command, and accepting what the host presents. -/

namespace Sys2Proof.Machine

/-- `for i = 0 .. n-1`: each iteration sees the writes of the ones before it (R15). -/
def forUp {σ : Type} : (n : Nat) → ((i : Nat) → i < n → σ → σ) → σ → σ
  | 0, _, s => s
  | n + 1, body, s => body n (Nat.lt_succ_self n) (forUp n (fun i h => body i (Nat.lt_succ_of_lt h)) s)

/-- `for i = n-1 downto 0` (R15). -/
def forDown {σ : Type} : (n : Nat) → ((i : Nat) → i < n → σ → σ) → σ → σ
  | 0, _, s => s
  | n + 1, body, s => forDown n (fun i h => body i (Nat.lt_succ_of_lt h)) (body n (Nat.lt_succ_self n) s)

/-- `for i = 0 .. n-1` where an iteration may run out of frame bits. -/
def forUpM {σ : Type} : (n : Nat) → ((i : Nat) → i < n → σ → Option σ) → σ → Option σ
  | 0, _, s => some s
  | n + 1, body, s =>
    (forUpM n (fun i h => body i (Nat.lt_succ_of_lt h)) s).bind (body n (Nat.lt_succ_self n))

/-- Read `LAR[slot][i]` (R15, R21). -/
def State.larAt (s : State) (slot : Slot) (i : Fin 8) : Word :=
  (s.lar[slot.toFin])[i]

/-- `LAR[slot][i] <- w` (R15, R21). -/
def State.setLar (s : State) (slot : Slot) (i : Fin 8) (w : Word) : State :=
  { s with lar := s.lar.set slot.toFin ((s.lar[slot.toFin]).set i w) }

/-- `LAR_SLOT ^ 1` (R13). -/
def otherSlot (slot : Slot) : Slot :=
  slot ^^^ 1

/-- Read `sext_16(EXC[a])` (R14, R15). -/
def State.excAt (s : State) (a : Fin 280) : Int :=
  s.exc[a].toInt

/-- `EXC[a] <- wrap16(x)` (R24, R82). -/
def State.setExc (s : State) (a : Fin 280) (x : Int) : State :=
  { s with exc := s.exc.set a (toSample x) }

/-- Read `sext_16(PCM[i])` (R14, R15). -/
def State.pcmAt (s : State) (i : Fin 160) : Int :=
  s.pcm[i].toInt

/-- `PCM[i] <- wrap16(x)` (R82, R103). -/
def State.setPcm (s : State) (i : Fin 160) (x : Int) : State :=
  { s with pcm := s.pcm.set i (toSample x) }

/-- `GetBits(n)`: the next n payload bits as an unsigned integer, and `BITPOS` advanced by n (R62); none
where fewer than n bits remain (R61). -/
def State.getBits (s : State) (n : Nat) : Option (Nat × State) :=
  (readBits s.frameIn (s.params.padLead.bits + s.bitpos) n).map fun v => (v, { s with bitpos := s.bitpos + n })

/-- A command's response on the `RESP` port (R135, R140). -/
def State.respond (s : State) (r : Resp) : State :=
  { s with resp := some r }

/-- `raise r`: the command ends and the response carries the code.  Nothing is saved, no mode changes, no
vector is fetched; `FSM` is what it was before the command, and a command being decoded was accepted in
Ready (R15, R127, R141, R146). -/
def State.raise (s : State) (r : Resp) : State :=
  { s.respond r with fsm := if s.fsm = .decoding then .ready else s.fsm }

/-- The working registers do not survive a command: what they hold is unspecified (R26, R27, R33, U13).
No frame is presented any more (R30). -/
def State.discardWork (s : State) : State :=
  { s with
    rrp := Config.freeRrp s.freeCount
    bitpos := Config.freeBitpos s.freeCount
    ret := Config.freeRet s.freeCount
    frameIn := []
    freeCount := s.freeCount + 1 }

/-- The decoder state of a session is destroyed: what it holds is unspecified (R161, R162, U4). -/
def State.discardSession (s : State) : State :=
  { s with
    fsm := .idle
    cfgMode := Config.freeMode s.freeCount
    lar := Config.freeLar s.freeCount
    larSlot := Config.freeLarSlot s.freeCount
    v := Config.freeV s.freeCount
    exc := Config.freeExc s.freeCount
    msr := Config.freeMsr s.freeCount
    freeCount := s.freeCount + 1 }

/-- Every field of the decoder state at zero, `CFG_MODE` at the operand, `FSM` Ready (R33, R160). -/
def State.freshSession (s : State) (mode : Mode) : State :=
  { s with
    fsm := .ready
    cfgMode := mode
    lar := Vector.replicate 2 (Vector.replicate 8 0)
    larSlot := 0
    v := Vector.replicate 9 0
    exc := Vector.replicate 280 0
    msr := 0 }

/-- The hard reset input: `FSM` is put in Idle and all session and working state is unspecified (R161).
It is no command, so it gives no response. -/
def State.hardReset (s : State) : State :=
  s.discardSession.discardWork

/-- What a step finds at the block's inputs. -/
inductive Fetched where
  /-- Nothing to accept: the block waits (R151). -/
  | wait
  /-- The hard reset input; the state without it. -/
  | reset (s : State)
  /-- A command; the state without it. -/
  | command (i : Instr) (s : State)
  deriving DecidableEq, Repr

/-- Take the oldest input.  A command is not accepted while one is in progress (R50, R127). -/
def State.fetch (s : State) : Fetched :=
  match s.inputs with
  | [] => .wait
  | .hardReset :: rest => .reset { s with inputs := rest }
  | .command r :: rest =>
    if s.fsm = .decoding then .wait else .command (decode r) { s with inputs := rest }

/-- An input placed before all others, in a state in which the block accepts it. -/
def State.present (s : State) (r : Request) : State :=
  { s with
    inputs := .command r :: s.inputs
    fsm := if s.fsm = .decoding then .ready else s.fsm }

end Sys2Proof.Machine
end

