-- ==== Sys2Proof/Machine/Operands.lean ====
section
/-! DEFINITION. The operand forms: how a frame field or a position becomes the value an operation uses
(R67), and the table reads. -/

namespace Sys2Proof.Machine

/-- The coded lag clamped to 40..120 (R67, R110). -/
def clampLag (lag : Nat) : Nat :=
  clamp lag 40 120

/-- A clamped lag is at most 120. -/
theorem clampLag_le (lag : Nat) : clampLag lag ≤ 120 := by
  unfold clampLag clamp; split <;> [omega; split <;> omega]

/-- A clamped lag is at least 40. -/
theorem le_clampLag (lag : Nat) : 40 ≤ clampLag lag := by
  unfold clampLag clamp; split <;> [omega; split <;> omega]

/-- A lag in 40..120 is its own clamp, so that clamping twice is clamping once (R110). -/
@[simp] theorem clampLag_clampLag (lag : Nat) : clampLag (clampLag lag) = clampLag lag := by
  unfold clampLag clamp
  split_ifs <;> omega

/-- `LTP_GAIN_TAB[gi]` for the 2-bit index gi (R110). -/
def State.gain (s : State) (gi : Nat) : BitVec 16 :=
  s.params.ltpGainTab[(BitVec.ofNat 2 gi).toFin]

/-- `wp + n`, n = 0..39, with `wp = 120 + 40*k` the write position of subframe k (R46). -/
def writePos (k : Fin 4) (n : Nat) (h : n < 40) : Fin 280 :=
  ⟨120 + 40 * k.val + n, by omega⟩

/-- `wp - L + n` for the clamped lag L (R47, R111). -/
def readPos (k : Fin 4) (lag n : Nat) (h : n < 40) : Fin 280 :=
  ⟨120 + 40 * k.val + n - clampLag lag, by omega⟩

/-- `wp + o + 3*j`, the position of pulse j (R115). -/
def pulsePos (k : Fin 4) (o : BitVec 2) (j : Nat) (h : j < 13) : Fin 280 :=
  ⟨120 + 40 * k.val + o.toNat + 3 * j, by omega⟩

/-- `REQUANT_TAB[w][x]` for the w-bit coded value x (R117). -/
def requantLevel (t : RequantTab) (w : Fin 4) (x : Nat) : Level :=
  match w with
  | 0 => t.w0[(BitVec.ofNat 0 x).toFin]
  | 1 => t.w1[(BitVec.ofNat 1 x).toFin]
  | 2 => t.w2[(BitVec.ofNat 2 x).toFin]
  | 3 => t.w3[(BitVec.ofNat 3 x).toFin]

/-- `DEQUANT_TAB[m][REQUANT_TAB[w][x]]`, signed, for the 6-bit index m (R116). -/
def State.dequant (s : State) (m : Nat) (w : Fin 4) (x : Nat) : Int :=
  ((s.params.dequantTab[(BitVec.ofNat 6 m).toFin])[requantLevel s.params.requantTab w x]).toInt

/-- The blend of a previous and a current LAR value in sample range r (R100): each term is shifted on its
own and the shifted terms are added exactly (R101). -/
def blend (r : Fin 4) (p c : Int) : Int :=
  match r with
  | 0 => asr p 2 + asr p 1 + asr c 2
  | 1 => asr p 1 + asr c 1
  | 2 => asr p 2 + asr c 1 + asr c 2
  | 3 => c

/-- The sample range whose coefficients are computed just before sample i, if there is one (R103). -/
def rangeStartingAt (i : Nat) : Option (Fin 4) :=
  if i = 0 then some 0 else if i = 13 then some 1 else if i = 27 then some 2
  else if i = 40 then some 3 else none

end Sys2Proof.Machine
end

