-- ==== Sys2Proof/Machine/Apcm.lean ====
section
/-! DEFINITION. The APCM residual reconstructor, `APCMADD` (spec/45_apcm.md). -/

namespace Sys2Proof.Machine

/-- One pulse of `APCMADD`: read `X[k][j]`, add its dequantized level at its position (R115, R116). -/
def apcmPulse (k : Fin 4) (o : BitVec 2) (m : Nat) (j : Nat) (h : j < 13) (s : State) : Option State :=
  let w := apcmBits s.cfgMode k ⟨j, h⟩
  (s.getBits w).map fun xt =>
    xt.2.setExc (pulsePos k o j h)
      (wrap16 (xt.2.excAt (pulsePos k o j h) + xt.2.dequant m w xt.1))

/-- `APCMADD(k, o)`: read `MAXIDX[k]`, then the thirteen pulses in ascending order (R116). -/
def State.apcmadd (s : State) (k : Fin 4) (o : BitVec 2) : Option State :=
  (s.getBits 6).bind fun mt => forUpM 13 (fun j h => apcmPulse k o mt.1 j h) mt.2

/-- The meaning of `APCMADD`. -/
def execApcmadd (k : Fin 4) (o : BitVec 2) (s : State) : Host.Outcome State Fault Refusal :=
  match s.apcmadd k o with
  | some t => .next t
  | none => .next (s.raise .truncatedInput)

end Sys2Proof.Machine
end

