-- ==== Sys2Proof/Machine/LarDecode.lean ====
section
/-! DEFINITION. The LAR decoder, `LARDEC` (spec/41_lar_decode.md). -/

namespace Sys2Proof.Machine

/-- The factor `F[i]` (R90). -/
def larFactor (i : Fin 8) : Int :=
  (#v[13107, 13107, 13107, 13107, 19223, 17476, 31454, 29708] : Vector Int 8)[i]

/-- The offset `O[i]` (R90). -/
def larOffset (i : Fin 8) : Int :=
  (#v[32768, 32768, 20480, 11264, 8380, 4608, 3414, 1808] : Vector Int 8)[i]

/-- The LAR value of index c for coefficient i: `round_mul((c << 10) - O[i], F[i]) << 1` (R90, C2). -/
def larValue (i : Fin 8) (c : Nat) : Int :=
  shl (roundMul (shl c 10 - larOffset i) (larFactor i)) 1

/-- One iteration of `LARDEC`: read `LARC[i]`, write `LAR[LAR_SLOT][i]` (R90). -/
def larStage (i : Fin 8) (s : State) : Option State :=
  (s.getBits (larWidth i)).map fun ct => ct.2.setLar ct.2.larSlot i (toWord (larValue i ct.1))

/-- `LARDEC` (R90). -/
def State.lardec (s : State) : Option State :=
  forUpM 8 (fun i h => larStage ⟨i, h⟩) s

/-- The meaning of `LARDEC`. -/
def execLardec (s : State) : Host.Outcome State Fault Refusal :=
  match s.lardec with
  | some t => .next t
  | none => .next (s.raise .truncatedInput)

end Sys2Proof.Machine
end

