-- ==== Sys2Proof/Machine/LongTerm.lean ====
section
/-! DEFINITION. The long-term synthesis filter, `LTSYN` (spec/44_long_term_synth.md). -/

namespace Sys2Proof.Machine

/-- `LTSYN(k, L, g)`: forty samples of subframe k, each the sample L before it scaled by the unsigned
gain (R111).  The lag is clamped (R110), which leaves an operand in 40..120 as it is. -/
def State.ltsyn (s : State) (k : Fin 4) (lag : Nat) (g : BitVec 16) : State :=
  forUp 40 (fun n h t =>
    t.setExc (writePos k n h) (wrap16 (roundMul g.toNat (t.excAt (readPos k lag n h))))) s

/-- The meaning of `LTSYN`. -/
def execLtsyn (k : Fin 4) (lag : Nat) (g : BitVec 16) (s : State) : Host.Outcome State Fault Refusal :=
  .next (s.ltsyn k lag g)

end Sys2Proof.Machine
end

