-- ==== Sys2Proof/Machine/PostFilter.lean ====
section
/-! DEFINITION. The de-emphasis post-filter, `DEEMPH` (spec/46_deemphasis.md). -/

namespace Sys2Proof.Machine

/-- The accumulator after a sample: `clip16(sample + round_mul(MSR, 28180))` (R120). -/
def msrNext (msr sample : Int) : Int :=
  clip16 (sample + roundMul msr 28180)

/-- The output sample for an accumulator: `clip16(MSR << 1) & ~7` (R120, R121). -/
def pcmOut (msr : Int) : Int :=
  mask7 (clip16 (shl msr 1))

/-- One iteration of `DEEMPH` (R120). -/
def deemphSample (i : Fin 160) (s : State) : State :=
  let m := msrNext s.msr.toInt (s.pcmAt i)
  { s with msr := toSample m }.setPcm i (pcmOut m)

/-- `DEEMPH` (R120). -/
def State.deemph (s : State) : State :=
  forUp 160 (fun i h => deemphSample ⟨i, h⟩) s

/-- The meaning of `DEEMPH`. -/
def execDeemph (s : State) : Host.Outcome State Fault Refusal :=
  .next s.deemph

end Sys2Proof.Machine
end

