-- ==== Sys2Proof/Machine/ShortTerm.lean ====
section
/-! DEFINITION. The reflection coefficient transform and the short-term synthesis filter: `REFLECT`,
`LARBLEND`, `LATSTEP`, `STSYN` (spec/42_reflection.md, spec/43_short_term_synth.md). -/

namespace Sys2Proof.Machine

/-- The magnitude transform of `reflect`, by region of `a = |x|` (R95). -/
def reflectMagnitude (a : Int) : Int :=
  if a < 11059 then shl a 1 else if a < 20070 then a + 11059 else asr a 2 + 26112

/-- `reflect(x)` on an integer: transform the magnitude, restore the sign (R95). -/
def reflectInt (x : Int) : Int :=
  if x < 0 then -reflectMagnitude |x| else reflectMagnitude |x|

/-- `reflect(x)` on a `W_ACC`-bit word.  For -2^31 the magnitude is not representable and the spec gives
the case no meaning (R97, U10): a free value (log entry 5). -/
def reflect (x : Word) : Word :=
  if x.toInt = -(2 ^ 31) then Config.freeReflect x else toWord (reflectInt x.toInt)

/-- The meaning of `REFLECT`: the result is returned. -/
def execReflect (x : Word) (s : State) : Host.Outcome State Fault Refusal :=
  .next { s with ret := (reflect x).toInt }

/-- The coefficient of index i in sample range r: `reflect(B_r(P[i], C[i]))` (R100). -/
def State.coefficient (s : State) (r : Fin 4) (i : Fin 8) : Word :=
  reflect (toWord (blend r (s.larAt (otherSlot s.larSlot) i).toInt (s.larAt s.larSlot i).toInt))

/-- `LARBLEND(r)` (R100). -/
def State.larblend (s : State) (r : Fin 4) : State :=
  forUp 8 (fun i h t => { t with rrp := t.rrp.set i (t.coefficient r ⟨i, h⟩) }) s

/-- The meaning of `LARBLEND`. -/
def execLarblend (r : Fin 4) (s : State) : Host.Outcome State Fault Refusal :=
  .next (s.larblend r)

/-- One stage of the lattice on the running value `in` and the memory `V`: the subtraction first, then
the write of `V[i + 1]` from the new `in` and the old `V[i]` (R102). -/
def latticeStage (rrp : Vector Word 8) (i : Fin 8) (a : Int × Vector Word 9) : Int × Vector Word 9 :=
  let old := (a.2[i.castSucc]).toInt
  let inner := wrap32 (a.1 - roundMul (rrp[i]).toInt old)
  (inner, a.2.set i.succ (toWord (wrap32 (old + roundMul (rrp[i]).toInt inner))))

/-- Stages 7 downto 0, then `V[0] <- in` (R102). -/
def lattice (rrp : Vector Word 8) (v : Vector Word 9) (x : Int) : Int × Vector Word 9 :=
  let a := forDown 8 (fun i h => latticeStage rrp ⟨i, h⟩) (x, v)
  (a.1, a.2.set 0 (toWord a.1))

/-- `LATSTEP(x)`: the value returned and the state after (R102). -/
def State.latstep (s : State) (x : Int) : Int × State :=
  let a := lattice s.rrp s.v x
  (a.1, { s with v := a.2 })

/-- The meaning of `LATSTEP`: the lattice output is returned. -/
def execLatstep (x : Sample) (s : State) : Host.Outcome State Fault Refusal :=
  .next { (s.latstep x.toInt).2 with ret := (s.latstep x.toInt).1 }

/-- The coefficients recomputed where a sample range starts (R103). -/
def State.blendIfDue (s : State) (i : Nat) : State :=
  match rangeStartingAt i with
  | some r => s.larblend r
  | none => s

/-- One iteration of `STSYN` (R103). -/
def synthSample (i : Fin 160) (s : State) : State :=
  let a := (s.blendIfDue i).latstep (s.excAt ⟨120 + i.val, by omega⟩)
  a.2.setPcm i (wrap16 a.1)

/-- `STSYN` (R103). -/
def State.stsyn (s : State) : State :=
  forUp 160 (fun i h => synthSample ⟨i, h⟩) s

/-- The meaning of `STSYN`. -/
def execStsyn (s : State) : Host.Outcome State Fault Refusal :=
  .next s.stsyn

end Sys2Proof.Machine
end

