-- ==== Sys2Proof/Machine/Orchestrator.lean ====
section
/-! DEFINITION. The frame orchestrator: `HISTSHIFT`, `LARTOGGLE` and `DECODE_FRAME`
(spec/47_orchestrator.md). -/

namespace Sys2Proof.Machine

/-- `HISTSHIFT`: `EXC[n] <- EXC[160 + n]`, n = 0..119 (R130). -/
def State.histshift (s : State) : State :=
  forUp 120 (fun n h t => t.setExc ⟨n, by omega⟩ (t.excAt ⟨160 + n, by omega⟩)) s

/-- The meaning of `HISTSHIFT`. -/
def execHistshift (s : State) : Host.Outcome State Fault Refusal :=
  .next s.histshift

/-- `LARTOGGLE`: `LAR_SLOT <- LAR_SLOT ^ 1` (R131). -/
def State.lartoggle (s : State) : State :=
  { s with larSlot := otherSlot s.larSlot }

/-- The meaning of `LARTOGGLE`. -/
def execLartoggle (s : State) : Host.Outcome State Fault Refusal :=
  .next s.lartoggle

/-- One subframe of step 2: read lag, gain index and offset, then `LTSYN`, then `APCMADD` (R129). -/
def State.subframe (s : State) (k : Fin 4) : Option State :=
  (s.getBits 7).bind fun lag =>
  (lag.2.getBits 2).bind fun gain =>
  (gain.2.getBits 2).bind fun off =>
  (off.2.ltsyn k lag.1 (off.2.gain gain.1)).apcmadd k (BitVec.ofNat 2 off.1)

/-- Steps 3 to 6 (R126). -/
def State.finishFrame (s : State) : State :=
  s.histshift.stsyn.deemph.lartoggle

/-- Steps 1 to 6 of a decode, in order (R126); none where the frame's bits run out. -/
def State.decodeSteps (s : State) : Option State :=
  s.lardec.bind fun s1 =>
  (forUpM 4 (fun k h t => t.subframe ⟨k, h⟩) s1).map State.finishFrame

/-- The state in which step 1 starts: `FSM <- Decoding ; BITPOS <- 0`, the frame held (R125). -/
def State.startFrame (s : State) (frame : List Byte) : State :=
  { s with fsm := .decoding, bitpos := 0, frameIn := frame }

/-- After step 6: `FSM <- Ready`, `BITPOS` and the other temporaries discarded, the response OK (R27,
R125). -/
def State.endFrame (s : State) : State :=
  ({ s with fsm := .ready }.discardWork).respond .ok

/-- The meaning of `DECODE_FRAME`: NoSession is tested first, then the length, both before any write
(R125, R142, R143, R145).  While a command is in progress it is not accepted (R50, R127). -/
def execDecodeFrame (frame : List Byte) (s : State) : Host.Outcome State Fault Refusal :=
  match s.fsm with
  | .decoding => .next s
  | .idle => .next (s.raise .noSession)
  | .ready =>
    if 8 * frame.length < neededBits s.params.padLead s.cfgMode then .next (s.raise .truncatedInput)
    else
      match (s.startFrame frame).decodeSteps with
      | some t => .next t.endFrame
      | none => .next (s.raise .truncatedInput)

end Sys2Proof.Machine
end

