-- ==== Sys2Proof/Machine/Primitives.lean ====
section
/-! DEFINITION. The arithmetic and reader primitives as operations of their own
(spec/40_arith_primitives.md, spec/30_encoding.md): none but `GetBits` touches a register of the block;
the result is returned. -/

namespace Sys2Proof.Machine

/-- The meaning of `round_mul` (R80). -/
def execRoundMul (a b : Int) (s : State) : Host.Outcome State Fault Refusal :=
  .next { s with ret := roundMul a b }

/-- The meaning of `clip16` (R81). -/
def execClip16 (x : Int) (s : State) : Host.Outcome State Fault Refusal :=
  .next { s with ret := clip16 x }

/-- The meaning of `wrap16` (R82). -/
def execWrap16 (x : Int) (s : State) : Host.Outcome State Fault Refusal :=
  .next { s with ret := wrap16 x }

/-- The meaning of `wrap32` (R83). -/
def execWrap32 (x : Int) (s : State) : Host.Outcome State Fault Refusal :=
  .next { s with ret := wrap32 x }

/-- The meaning of `GetBits` (R62); where the reader reports that fewer than n bits remain (R61), the
command ends with TruncatedInput (R15, R140). -/
def execGetBits (n : Nat) (s : State) : Host.Outcome State Fault Refusal :=
  match s.getBits n with
  | some vt => .next { vt.2 with ret := vt.1 }
  | none => .next (s.raise .truncatedInput)

end Sys2Proof.Machine
end

