-- ==== Sys2Proof/Machine/Session.lean ====
section
/-! DEFINITION. The session commands, `SESSION_OPEN` and `SESSION_CLOSE`
(spec/70_reset_and_hazards.md). -/

namespace Sys2Proof.Machine

/-- The meaning of `SESSION_OPEN`: all decoder state zeroed, `CFG_MODE` latched, `FSM` Ready, in Idle and
in Ready alike (R160).  While a command is in progress it is not accepted (R50, R127). -/
def execSessionOpen (mode : Mode) (s : State) : Host.Outcome State Fault Refusal :=
  match s.fsm with
  | .decoding => .next s
  | .idle => .next ((s.freshSession mode).discardWork.respond .ok)
  | .ready => .next ((s.freshSession mode).discardWork.respond .ok)

/-- The meaning of `SESSION_CLOSE`: in Ready the session's state is destroyed and `FSM` is Idle; in Idle
no effect; OK either way (R162).  While a command is in progress it is not accepted (R50, R127). -/
def execSessionClose (s : State) : Host.Outcome State Fault Refusal :=
  match s.fsm with
  | .decoding => .next s
  | .idle => .next (s.respond .ok)
  | .ready => .next (s.discardSession.discardWork.respond .ok)

end Sys2Proof.Machine
end

