-- ==== Sys2Proof/Machine/Dispatch.lean ====
section
/-! DEFINITION. The dispatch: one arm for each constructor of Instr, one call of its meaning. -/

namespace Sys2Proof.Machine

def exec (i : Instr) (s : State) : Host.Outcome State Fault Refusal :=
  match i with
  | .decodeFrame frame => Sys2Proof.Machine.execDecodeFrame frame s
  | .sessionOpen mode => Sys2Proof.Machine.execSessionOpen mode s
  | .sessionClose => Sys2Proof.Machine.execSessionClose s
  | .lardec => Sys2Proof.Machine.execLardec s
  | .reflect x => Sys2Proof.Machine.execReflect x s
  | .larblend r => Sys2Proof.Machine.execLarblend r s
  | .latstep x => Sys2Proof.Machine.execLatstep x s
  | .stsyn => Sys2Proof.Machine.execStsyn s
  | .ltsyn k lag g => Sys2Proof.Machine.execLtsyn k lag g s
  | .apcmadd k o => Sys2Proof.Machine.execApcmadd k o s
  | .histshift => Sys2Proof.Machine.execHistshift s
  | .deemph => Sys2Proof.Machine.execDeemph s
  | .lartoggle => Sys2Proof.Machine.execLartoggle s
  | .roundMul a b => Sys2Proof.Machine.execRoundMul a b s
  | .clip16 x => Sys2Proof.Machine.execClip16 x s
  | .wrap16 x => Sys2Proof.Machine.execWrap16 x s
  | .wrap32 x => Sys2Proof.Machine.execWrap32 x s
  | .getBits n => Sys2Proof.Machine.execGetBits n s

end Sys2Proof.Machine
end

