-- ==== Sys2Proof/Machine/Step.lean ====
section
/-! DEFINITION. One step: the block accepts the oldest input of the host and runs it to its response;
with nothing to accept it waits, and all state survives the wait (R18, R50, R151). -/

namespace Sys2Proof.Machine

/-- One step. -/
def step (s : State) : Host.Outcome State Fault Refusal :=
  match s.fetch with
  | .wait => .next s
  | .reset t => .next t.hardReset
  | .command i t => exec i t

/-- s with a `DECODE_FRAME` of an opcode-table word as the next input; a row of no bits has no word to
place. -/
def State.withFetchWord (s : State) (nbits w : Nat) : State :=
  if nbits = 0 then s else s.present (tableRequest nbits w)

end Sys2Proof.Machine
end

