-- ==== Sys2Proof/Safety.lean ====
section
/-! DEFINITION. The terms claims use: the invariant of rule R34, what it is for two states to hold the
same decoder state, and the exchange of the two LAR slots (R31). -/

namespace Sys2Proof.Machine

/-- Every `LAR[s][i]` is 0 or a value of rule R92's table for coefficient i (R34). -/
def LarLegal (s : State) : Prop :=
  ∀ (slot : Slot) (i : Fin 8),
    (s.larAt slot i).toInt = 0 ∨ ∃ c < 2 ^ larWidth i, (s.larAt slot i).toInt = larValue i c

/-- The invariant between commands: `FSM` is Idle or Ready (R127), and in Ready the LAR registers hold
values the decoder can have written (R34).  The other lines of R34 are the types of `EXC`, `MSR`, `V` and
`LAR_SLOT`. -/
def Inv (s : State) : Prop :=
  s.fsm ≠ .decoding ∧ (s.fsm = .ready → LarLegal s)

/-- Two states hold the same decoder state: every item of rule R20 is equal. -/
def SameDecoderState (s t : State) : Prop :=
  s.fsm = t.fsm ∧ s.cfgMode = t.cfgMode ∧ s.lar = t.lar ∧ s.larSlot = t.larSlot ∧ s.v = t.v ∧
    s.exc = t.exc ∧ s.msr = t.msr

/-- The two LAR slots exchanged together with flipping `LAR_SLOT` (R31). -/
def State.exchangeSlots (s : State) : State :=
  { s with lar := #v[s.lar[1], s.lar[0]], larSlot := otherSlot s.larSlot }

/-- Run instructions one after another; none as soon as one gives no next state. -/
def execAll : List Instr → State → Option State
  | [], s => some s
  | i :: is, s =>
    match exec i s with
    | .next t => execAll is t
    | .fault _ => none
    | .refused _ => none

/-- Two states alike but for that exchange: one is the other, or the other with the slots exchanged. -/
def SlotsExchanged (s s' : State) : Prop :=
  s' = s ∨ s' = s.exchangeSlots

/-- The operations of one subframe record, `LTSYN` with the clamped lag (R129). -/
def subframeProgram (q : Params) (k : Fin 4) (f : Subframe) : List Instr :=
  [.getBits 7, .getBits 2, .getBits 2,
    .ltsyn k (clampLag f.lag) q.ltpGainTab[(BitVec.ofNat 2 f.gain).toFin], .apcmadd k (BitVec.ofNat 2 f.off)]

/-- The fixed step list of a frame with the given fields (R126). -/
def frameProgram (q : Params) (f : Frame) : List Instr :=
  .lardec :: ((List.finRange 4).flatMap fun k => subframeProgram q k f.sub[k]) ++
    [.histshift, .stsyn, .deemph, .lartoggle]

end Sys2Proof.Machine
end

