-- ==== Sys2Proof/Certificates/Slice0/Obligations.lean ====
section
/-! DEFINITION. The statements for the provers.  First the spec's own tables and formulas as the statements
use them, written here from the spec and not from the model; then one definition for each statement, in
the order of OBLIGATIONS.json. -/

namespace Sys2Proof.Rules

open Sys2Proof.Machine

/-- One row of the table of R90, with the payload bit at which the field starts (R63). -/
structure LarRow where
  width  : Nat
  start  : Nat
  factor : Int
  offset : Int

/-- The tables of R63 and R90. -/
def larRow : Fin 8 → LarRow
  | 0 => ⟨6, 0, 13107, 32768⟩
  | 1 => ⟨6, 6, 13107, 32768⟩
  | 2 => ⟨5, 12, 13107, 20480⟩
  | 3 => ⟨5, 17, 13107, 11264⟩
  | 4 => ⟨4, 22, 19223, 8380⟩
  | 5 => ⟨4, 26, 17476, 4608⟩
  | 6 => ⟨3, 30, 31454, 3414⟩
  | 7 => ⟨3, 33, 29708, 1808⟩

/-- The LAR value of index c: `round_mul((c << 10) - O[i], F[i]) << 1` (R90). -/
def larOf (i : Fin 8) (c : Nat) : Int :=
  2 * ((((c : Int) * 1024 - (larRow i).offset) * (larRow i).factor + 16384) / 32768)

/-- The rows i = 0 and i = 1 of R92's table. -/
def larTable01 : List Int :=
  [-26214, -25394, -24576, -23756, -22938, -22118, -21298, -20480, -19660, -18842, -18022, -17202,
    -16384, -15564, -14746, -13926, -13106, -12288, -11468, -10650, -9830, -9012, -8192, -7372, -6554,
    -5734, -4916, -4096, -3276, -2458, -1638, -820] ++
  [0, 820, 1638, 2458, 3276, 4096, 4916, 5734, 6554, 7372, 8192, 9012, 9830, 10650, 11468, 12288, 13108,
    13926, 14746, 15564, 16384, 17202, 18022, 18842, 19660, 20480, 21298, 22118, 22938, 23756, 24576, 25394]

/-- R92's table. -/
def larTable : Fin 8 → List Int
  | 0 => larTable01
  | 1 => larTable01
  | 2 => [-16384, -15564, -14746, -13926, -13106, -12288, -11468, -10650, -9830, -9012, -8192, -7372, -6554,
      -5734, -4916, -4096, -3276, -2458, -1638, -820, 0, 820, 1638, 2458, 3276, 4096, 4916, 5734, 6554, 7372,
      8192, 9012]
  | 3 => [-9012, -8192, -7372, -6554, -5734, -4916, -4096, -3276, -2458, -1638, -820, 0, 820, 1638, 2458, 3276,
      4096, 4916, 5734, 6554, 7372, 8192, 9012, 9830, 10650, 11468, 12288, 13108, 13926, 14746, 15564, 16384]
  | 4 => [-9832, -8630, -7430, -6228, -5026, -3824, -2624, -1422, -220, 980, 2182, 3384, 4586, 5786, 6988, 8190]
  | 5 => [-4916, -3822, -2730, -1638, -546, 546, 1638, 2730, 3822, 4916, 6008, 7100, 8192, 9284, 10376, 11468]
  | 6 => [-6554, -4588, -2622, -656, 1310, 3276, 5242, 7206]
  | 7 => [-3278, -1422, 436, 2292, 4148, 6006, 7862, 9718]

/-- The first frame bit not yet consumed: `PAD_LEAD + BITPOS` (R62). -/
def cursor (s : State) : Nat :=
  s.params.padLead.bits + s.bitpos

/-- The n-bit field that starts at the given distance from the cursor (R62). -/
def field (s : State) (at_ n : Nat) : Option Nat :=
  readBits s.frameIn (cursor s + at_) n

/-- The sum of the residual widths of subframe k before pulse j (R66). -/
def residualBits (m : Mode) (k : Fin 4) (j : Nat) : Nat :=
  (((List.finRange 13).take j).map fun i => (apcmBits m k i).val).sum

/-- `reflect` (R95). -/
def reflectOf (x : Int) : Int :=
  let m := if |x| < 11059 then |x| * 2 else if |x| < 20070 then |x| + 11059 else |x| / 4 + 26112
  if x < 0 then -m else m

/-- The blend of range r (R100), each term shifted on its own (R101). -/
def blendOf (r : Fin 4) (p c : Int) : Int :=
  match r with
  | 0 => p / 4 + p / 2 + c / 4
  | 1 => p / 2 + c / 2
  | 2 => p / 4 + c / 2 + c / 4
  | 3 => c

/-- The blend of coefficient i in a state: the previous set is in `LAR[LAR_SLOT ^ 1]`, the current in
`LAR[LAR_SLOT]` (R100). -/
def blendIn (s : State) (r : Fin 4) (i : Fin 8) : Int :=
  blendOf r (s.larAt (s.larSlot ^^^ 1) i).toInt (s.larAt s.larSlot i).toInt

/-- `REQUANT_TAB[w][x]` is l (R117). -/
def requantIs (t : RequantTab) (w x : Nat) (l : Level) : Prop :=
  (w = 0 → t.w0[x]? = some l) ∧ (w = 1 → t.w1[x]? = some l) ∧ (w = 2 → t.w2[x]? = some l) ∧
    (w = 3 → t.w3[x]? = some l)

/-- The sample of pulse j: `120 + 40*k + o + 3*j` (R115). -/
def pulseAt (k : Fin 4) (o : BitVec 2) (j : Fin 13) : Fin 280 :=
  ⟨120 + 40 * k.val + o.toNat + 3 * j.val, by omega⟩

/-- The corners of R96's table. -/
def reflectCorners : List (Int × Int) :=
  [(0, 0), (1, 2), (-1, -2), (11058, 22116), (11059, 22118), (-11059, -22118), (20069, 31128), (20070, 31129),
    (-20070, -31129), (20073, 31130), (25394, 32460), (-26214, -32665), (-26215, -32665), (32767, 34303),
    (-32768, -34304)]

/-- The frame of R73. -/
def packedExample : Frame where
  pad := 13
  larc := #v[32, 32, 20, 11, 8, 5, 3, 2]
  sub := #v[⟨40, 0, 0, 0, #v[0, 1, 2, 3, 4, 5, 6, 7, 0, 1, 2, 3, 4]⟩,
    ⟨120, 3, 3, 63, #v[7, 7, 7, 7, 7, 7, 7, 7, 7, 7, 7, 7, 7]⟩,
    ⟨0, 1, 1, 32, #v[4, 4, 4, 4, 4, 4, 4, 4, 4, 4, 4, 4, 4]⟩,
    ⟨127, 2, 2, 16, #v[0, 0, 0, 0, 0, 0, 0, 0, 0, 0, 0, 0, 7]⟩]

/-- The 33 bytes of T-ENC-1, to which R73's frame packs. -/
def packedExampleBytes : List Byte :=
  [0xD8, 0x20, 0xA2, 0xE1, 0x5A, 0x50, 0x00, 0x02, 0x9C, 0xBB, 0x82, 0x9C, 0xF1, 0xFF, 0xFF, 0xFF, 0xFF, 0xFF,
    0xFF, 0x00, 0xB0, 0x49, 0x24, 0x92, 0x49, 0x24, 0xFF, 0x48, 0x00, 0x00, 0x00, 0x00, 0x07]

/-- A frame of the given length passes the length test in a state (R142). -/
def longEnough (s : State) (frame : List Byte) : Prop :=
  s.params.padLead.bits + payloadBits s.cfgMode ≤ 8 * frame.length

/-- Two inputs carry the same payload bits, whatever their padding and what follows the payload. -/
def samePayload (s : State) (f g : List Byte) : Prop :=
  ∀ q, s.params.padLead.bits ≤ q → q < s.params.padLead.bits + payloadBits s.cfgMode →
    frameBit f q = frameBit g q

end Sys2Proof.Rules

open Sys2Proof Sys2Proof.Machine Sys2Proof.Rules

/-- O1. R80: ROUND_MUL returns `(a*b + 16384) >> 15`, the product in Q15 rounded to nearest with ties upward,
and changes nothing else. -/
def Obligations.RoundMulRoundsToNearest : Prop :=
  ∀ (a b : Int) (s : State), ∃ r : Int, exec (.roundMul a b) s = .next { s with ret := r } ∧
    r = (a * b + 16384) / 32768 ∧ 32768 * r ≤ a * b + 16384 ∧ a * b + 16384 < 32768 * (r + 1)

/-- O2. R81: CLIP16 returns its operand saturated to the signed 16-bit range, and changes nothing else. -/
def Obligations.ClipSaturatesToSixteenBits : Prop :=
  ∀ (x : Int) (s : State), exec (.clip16 x) s =
    .next { s with ret := if x < -32768 then -32768 else if x > 32767 then 32767 else x }

/-- O3. R82: WRAP16 returns the low 16 bits of its operand read as signed, and changes nothing else. -/
def Obligations.WrapKeepsLowSixteenBits : Prop :=
  ∀ (x : Int) (s : State), ∃ r : Int, exec (.wrap16 x) s = .next { s with ret := r } ∧
    r = (x + 32768) % 65536 - 32768 ∧ r = (BitVec.ofInt 16 x).toInt ∧
    (-32768 ≤ x → x ≤ 32767 → r = x)

/-- O4. R83: WRAP32 returns the low 32 bits of its operand read as signed, and changes nothing else. -/
def Obligations.WrapKeepsLowThirtyTwoBits : Prop :=
  ∀ (x : Int) (s : State), ∃ r : Int, exec (.wrap32 x) s = .next { s with ret := r } ∧
    r = (x + 2 ^ 31) % 2 ^ 32 - 2 ^ 31 ∧ r = (BitVec.ofInt 32 x).toInt ∧
    (-(2 ^ 31) ≤ x → x ≤ 2 ^ 31 - 1 → r = x)

/-- O5. R62: with n bits left, GETBITS returns the next n frame bits as an unsigned integer, the first the
most significant, advances `BITPOS` by n, and changes nothing else. -/
def Obligations.GetBitsReadsMostSignificantFirst : Prop :=
  ∀ (s : State) (n : Nat), cursor s + n ≤ 8 * s.frameIn.length →
    ∃ v : Nat, v < 2 ^ n ∧ exec (.getBits n) s = .next { s with ret := v, bitpos := s.bitpos + n } ∧
      ∀ t < n, ∃ b, s.frameIn[(cursor s + t) / 8]? = some b ∧
        v.testBit (n - 1 - t) = b.getLsbD (7 - (cursor s + t) % 8)

/-- O6. Where the reader reports that fewer bits remain than an operation reads (R61), the command ends with
TruncatedInput: nothing but `RESP` changes, and `FSM` if the operation ran inside a decode. That a
micro-operation run on its own ends so is the model's reading (log entry 9). -/
def Obligations.ReaderRunningOutEndsTheCommand : Prop :=
  ∀ (s t : State),
    t = { s with resp := some .truncatedInput, fsm := if s.fsm = .decoding then .ready else s.fsm } →
    (∀ n, 0 < n → 8 * s.frameIn.length < cursor s + n → exec (.getBits n) s = .next t) ∧
    (8 * s.frameIn.length < cursor s + 36 → exec .lardec s = .next t) ∧
    (∀ k o, 8 * s.frameIn.length < cursor s + 6 + residualBits s.cfgMode k 13 →
      exec (.apcmadd k o) s = .next t)

/-- O7. R90: LARDEC reads the eight LAR indices in ascending order and stores `round_mul((c << 10) - O[i],
F[i]) << 1` for each in `LAR[LAR_SLOT]`; the other slot is not touched; `BITPOS` advances by 36; nothing else
changes. -/
def Obligations.LardecDecodesEightLars : Prop :=
  ∀ s : State, cursor s + 36 ≤ 8 * s.frameIn.length →
    ∃ t, exec .lardec s = .next t ∧ t = { s with lar := t.lar, bitpos := s.bitpos + 36 } ∧
      ∀ i : Fin 8, t.larAt (s.larSlot ^^^ 1) i = s.larAt (s.larSlot ^^^ 1) i ∧
        ∃ c, field s (larRow i).start (larRow i).width = some c ∧
          (t.larAt s.larSlot i).toInt = larOf i c

/-- O8. 41_lar_decode.md, "Complete value tables", which the spec marks derived from R90: the value LARDEC
stores for coefficient i and index c is entry c of row i, and lies in -26214..25394. -/
def Obligations.LardecFollowsTheCompleteTable : Prop :=
  ∀ s : State, cursor s + 36 ≤ 8 * s.frameIn.length →
    ∃ t, exec .lardec s = .next t ∧
      ∀ i : Fin 8, (larTable i).length = 2 ^ (larRow i).width ∧
        -26214 ≤ (t.larAt s.larSlot i).toInt ∧ (t.larAt s.larSlot i).toInt ≤ 25394 ∧
        ∃ c, field s (larRow i).start (larRow i).width = some c ∧
          (larTable i)[c]? = some (t.larAt s.larSlot i).toInt

/-- O9. R95: REFLECT returns the transformed magnitude with the sign of x restored, and changes nothing else;
for every word but -2^31, whose magnitude the spec gives no meaning (R97, U10; O10). -/
def Obligations.ReflectTransformsTheMagnitude : Prop :=
  ∀ (x : Word) (s : State), x.toInt ≠ -(2 ^ 31) →
    exec (.reflect x) s = .next { s with ret := reflectOf x.toInt }

/-- O10. MODEL'S CHOICE (log entry 5): on -2^31, to which the spec gives no meaning (R97), REFLECT completes
with some word and changes nothing else. Whatever word it is, the statement holds. -/
def Obligations.ReflectOfTheLeastWordCompletes : Prop :=
  ∀ s : State, ∃ w : Word, exec (.reflect (BitVec.ofInt 32 (-(2 ^ 31)))) s = .next { s with ret := w.toInt }

/-- O11. 42_reflection.md, "Properties", which the spec marks derived from R95: reflect(0) = 0; the magnitude
grows by 2 per unit in the first region, 1 per unit in the second, 1 per 4 units in the third, and never
decreases across the boundaries; reflect is odd; the corner values are those of the table there. -/
def Obligations.ReflectGrowsByRegionAndIsOdd : Prop :=
  (∀ (x y : Word) (s : State), x.toInt ≠ -(2 ^ 31) → y.toInt ≠ -(2 ^ 31) →
    ∃ a b, exec (.reflect x) s = .next { s with ret := a } ∧ exec (.reflect y) s = .next { s with ret := b } ∧
      (y.toInt = -x.toInt → b = -a) ∧
      (0 ≤ x.toInt → x.toInt ≤ y.toInt → a ≤ b) ∧
      (0 ≤ x.toInt → y.toInt = x.toInt + 1 → y.toInt < 11059 → b = a + 2) ∧
      (11059 ≤ x.toInt → y.toInt = x.toInt + 1 → y.toInt < 20070 → b = a + 1) ∧
      (20070 ≤ x.toInt → y.toInt = x.toInt + 4 → b = a + 1)) ∧
  ∀ p ∈ reflectCorners, ∀ s : State, exec (.reflect (BitVec.ofInt 32 p.1)) s = .next { s with ret := p.2 }

/-- O12. R100, R101: LARBLEND(r) sets each `RRP[i]` to reflect of the blend of range r, the terms shifted
separately with the floor shift, and changes nothing else. Where a blend is -2^31, which no reachable state
gives, the coefficient is unconstrained (log entry 5). -/
def Obligations.LarblendComputesTheCoefficients : Prop :=
  ∀ (r : Fin 4) (s : State), ∃ t, exec (.larblend r) s = .next t ∧ t = { s with rrp := t.rrp } ∧
    ∀ i : Fin 8, blendIn s r i ≠ -(2 ^ 31) → (t.rrp[i]).toInt = reflectOf (blendIn s r i)

/-- O13. 42_reflection.md, "Reachable domain and range", which the spec marks derived from R92, R95 and R100:
with LAR values the decoder can hold, every blend lies in -26215..25394 and every reflection coefficient in
-32665..32460. -/
def Obligations.ReachableCoefficientsAreBelowOne : Prop :=
  ∀ (r : Fin 4) (s : State), LarLegal s → ∃ t, exec (.larblend r) s = .next t ∧
    ∀ i : Fin 8, -26215 ≤ blendIn s r i ∧ blendIn s r i ≤ 25394 ∧
      (t.rrp[i]).toInt = reflectOf (blendIn s r i) ∧ -32665 ≤ (t.rrp[i]).toInt ∧ (t.rrp[i]).toInt ≤ 32460

/-- O14. R102: LATSTEP(x) runs stages 7 down to 0: the running value of stage i is that of stage i + 1 less
`round_mul(RRP[i], V[i])`, narrowed; `V[i + 1]` becomes the old `V[i]` plus `round_mul(RRP[i], in)`, narrowed;
`V[0]` becomes the last running value, which is returned. Nothing else changes. -/
def Obligations.LatstepRunsTheStagesInOrder : Prop :=
  ∀ (x : Sample) (s : State), ∃ (t : State) (inner : Nat → Int),
    exec (.latstep x) s = .next t ∧ t = { s with v := t.v, ret := inner 0 } ∧ inner 8 = x.toInt ∧
    (t.v[(0 : Fin 9)]).toInt = inner 0 ∧
    ∀ i : Fin 8,
      inner i = wrap32 (inner (i + 1) - ((s.rrp[i]).toInt * (s.v[i.castSucc]).toInt + 16384) / 32768) ∧
      (t.v[i.succ]).toInt =
        wrap32 ((s.v[i.castSucc]).toInt + ((s.rrp[i]).toInt * inner i + 16384) / 32768)

/-- O15. 43_short_term_synth.md, "Second worked example of `LATSTEP`", which the spec marks derived from
R102. -/
def Obligations.LatstepWorkedExample : Prop :=
  ∀ s : State,
    s.rrp.toList.map BitVec.toInt = [16384, -16384, 8192, 0, 0, 0, 0, 32460] →
    s.v.toList.map BitVec.toInt = [100, -200, 300, 0, 0, 0, 0, 1000, 5] →
    ∃ t, exec (.latstep 1000) s = .next t ∧ t.ret = -216 ∧
      t.v.toList.map BitVec.toInt = [-216, -8, -117, 284, 0, 0, 0, 0, 1009]

/-- O16. R103: STSYN is 160 lattice steps in ascending order over `EXC[120..279]`, the coefficients computed
anew before samples 0, 13, 27 and 40 and never else, each lattice output stored in `PCM[i]` narrowed to 16
bits while `V` keeps the un-narrowed value. Only `V`, `RRP` and `PCM` change. -/
def Obligations.StsynIsThePerSampleRecurrence : Prop :=
  ∀ s : State, ∃ (t : State) (seq : Nat → State), exec .stsyn s = .next t ∧
    t = { s with v := t.v, rrp := t.rrp, pcm := t.pcm } ∧ seq 0 = s ∧ seq 160 = t ∧
    ∀ i : Fin 160, ∃ u w,
      (i.val = 0 → exec (.larblend 0) (seq i) = .next u) ∧
      (i.val = 13 → exec (.larblend 1) (seq i) = .next u) ∧
      (i.val = 27 → exec (.larblend 2) (seq i) = .next u) ∧
      (i.val = 40 → exec (.larblend 3) (seq i) = .next u) ∧
      (i.val ≠ 0 → i.val ≠ 13 → i.val ≠ 27 → i.val ≠ 40 → u = seq i) ∧
      exec (.latstep s.exc[120 + i.val]) u = .next w ∧
      seq (i + 1) = { w with ret := s.ret, pcm := w.pcm.set i (BitVec.ofInt 16 w.ret) }

/-- O17. 43_short_term_synth.md, "Properties", the first, which the spec marks derived from R100 to R103: with
`EXC[120..279]` all 0 and `V[0..7]` all 0, every output of STSYN is 0 and `V` is 0, whatever the
coefficients. -/
def Obligations.SilentLatticeStaysSilent : Prop :=
  ∀ s : State, (∀ i : Fin 160, s.exc[120 + i.val] = 0) → (∀ j : Fin 8, s.v[j.castSucc] = 0) →
    ∃ t, exec .stsyn s = .next t ∧ (∀ i : Fin 160, t.pcm[i] = 0) ∧ ∀ j : Fin 9, t.v[j] = 0

/-- O18. R111: LTSYN(k, L, g) sets each of the forty samples of subframe k to `wrap16(round_mul(g, .))` of the
sample L before it, as it was before the operation; every other sample and everything else is unchanged.
R111's L is already clamped to 40..120; that LTSYN run alone clamps an operand outside that range is the
model's choice (log entry 17). -/
def Obligations.LtsynScalesTheLaggedWindow : Prop :=
  ∀ (k : Fin 4) (lag : Nat) (g : BitVec 16) (s : State), ∃ t, exec (.ltsyn k lag g) s = .next t ∧
    t = { s with exc := t.exc } ∧
    (∀ (n l : Nat) (hn : n < 40) (hl : l = if lag < 40 then 40 else if lag > 120 then 120 else lag),
      t.excAt ⟨120 + 40 * k.val + n, by omega⟩ =
        wrap16 (((g.toNat : Int) * s.excAt ⟨120 + 40 * k.val + n - l, by omega⟩ + 16384) / 32768)) ∧
    ∀ a : Fin 280, a.val < 120 + 40 * k.val ∨ 160 + 40 * k.val ≤ a.val → t.excAt a = s.excAt a

/-- O19. 44_long_term_synth.md, "Range", which the spec marks derived from R80 and R111: with a gain of at
most 32767 the samples LTSYN writes are `round_mul(g, .)` exactly, within -32767..32766; with gain 0 they are
all 0. -/
def Obligations.LtsynNeedsNoNarrowing : Prop :=
  ∀ (k : Fin 4) (lag : Nat) (g : BitVec 16) (s : State), 40 ≤ lag → (hlag : lag ≤ 120) → g.toNat ≤ 32767 →
    ∃ t, exec (.ltsyn k lag g) s = .next t ∧ ∀ (n : Nat) (hn : n < 40),
      t.excAt ⟨120 + 40 * k.val + n, by omega⟩ =
        ((g.toNat : Int) * s.excAt ⟨120 + 40 * k.val + n - lag, by omega⟩ + 16384) / 32768 ∧
      -32767 ≤ t.excAt ⟨120 + 40 * k.val + n, by omega⟩ ∧ t.excAt ⟨120 + 40 * k.val + n, by omega⟩ ≤ 32766 ∧
      (g = 0 → t.excAt ⟨120 + 40 * k.val + n, by omega⟩ = 0)

/-- O20. R115, R116: APCMADD(k, o) reads the 6-bit index m and then thirteen fields, and adds
`DEQUANT_TAB[m][REQUANT_TAB[w][x]]`, narrowed to 16 bits, to the sample `120 + 40*k + o + 3*j` for each j;
every other sample is unchanged, `BITPOS` advances by 6 and the thirteen widths, nothing else changes. -/
def Obligations.ApcmaddAddsThirteenPulses : Prop :=
  ∀ (k : Fin 4) (o : BitVec 2) (s : State),
    cursor s + 6 + residualBits s.cfgMode k 13 ≤ 8 * s.frameIn.length →
    ∃ t, exec (.apcmadd k o) s = .next t ∧
      t = { s with exc := t.exc, bitpos := s.bitpos + 6 + residualBits s.cfgMode k 13 } ∧
      (∃ m : Fin 64, field s 0 6 = some m.val ∧ ∀ j : Fin 13, ∃ x l,
        field s (6 + residualBits s.cfgMode k j) (apcmBits s.cfgMode k j) = some x ∧
        requantIs s.params.requantTab (apcmBits s.cfgMode k j) x l ∧
        t.excAt (pulseAt k o j) = wrap16 (s.excAt (pulseAt k o j) + ((s.params.dequantTab[m])[l]).toInt)) ∧
      ∀ a : Fin 280, (∀ j : Fin 13, a ≠ pulseAt k o j) → t.excAt a = s.excAt a

/-- O21. R130: HISTSHIFT copies `EXC[160..279]` to `EXC[0..119]`; `EXC[120..279]` and everything else is
unchanged. -/
def Obligations.HistshiftCopiesTheTail : Prop :=
  ∀ s : State, ∃ t, exec .histshift s = .next t ∧ t = { s with exc := t.exc } ∧
    ∀ a : Fin 280, (∀ h : a.val < 120, t.excAt a = s.excAt ⟨160 + a.val, by omega⟩) ∧
      (120 ≤ a.val → t.excAt a = s.excAt a)

/-- O22. R120: DEEMPH carries the accumulator `MSR <- clip16(PCM[i] + round_mul(MSR, 28180))` over the 160
samples in ascending order and replaces each sample by `clip16(MSR << 1) & ~7`; only `MSR` and `PCM`
change. -/
def Obligations.DeemphFiltersInPlace : Prop :=
  ∀ s : State, ∃ (t : State) (m : Nat → Int), exec .deemph s = .next t ∧
    t = { s with msr := t.msr, pcm := t.pcm } ∧ m 0 = s.msr.toInt ∧ t.msr.toInt = m 160 ∧
    ∀ i : Fin 160, m (i + 1) = clip16 ((s.pcm[i]).toInt + (m i * 28180 + 16384) / 32768) ∧
      (t.pcm[i]).toInt = clip16 (m (i + 1) * 2) - clip16 (m (i + 1) * 2) % 8

/-- O23. 46_deemphasis.md, "Every output sample is therefore a multiple of 8 in -32768..32760", which the spec
marks derived from R81 and R120: of the block a decode delivers. -/
def Obligations.OutputSamplesAreMultiplesOfEight : Prop :=
  ∀ (frame : List Byte) (s : State), s.fsm = .ready → longEnough s frame →
    ∃ t, exec (.decodeFrame frame) s = .next t ∧ t.resp = some .ok ∧
      ∀ i : Fin 160, (t.pcm[i]).toInt % 8 = 0 ∧ -32768 ≤ (t.pcm[i]).toInt ∧ (t.pcm[i]).toInt ≤ 32760

/-- O24. 46_deemphasis.md, "Decay", which the spec marks derived from R120: with zero input DEEMPH leaves
`MSR` as it was at exactly the values -3..3, and every output is then 0 for 0..3 and -8 for -3..-1. -/
def Obligations.AccumulatorRestsAtSevenValues : Prop :=
  ∀ s : State, (∀ i : Fin 160, s.pcm[i] = 0) → ∃ t, exec .deemph s = .next t ∧
    (t.msr = s.msr ↔ -3 ≤ s.msr.toInt ∧ s.msr.toInt ≤ 3) ∧
    (-3 ≤ s.msr.toInt → s.msr.toInt ≤ 3 →
      ∀ i : Fin 160, (t.pcm[i]).toInt = if s.msr.toInt < 0 then -8 else 0)

/-- O25. R131: LARTOGGLE flips `LAR_SLOT` and changes nothing else. -/
def Obligations.LartoggleFlipsTheSlot : Prop :=
  ∀ s : State, exec .lartoggle s = .next { s with larSlot := if s.larSlot = 0 then 1 else 0 }

/-- O26. R160: SESSION_OPEN, in Idle and in Ready, zeroes all decoder state, latches the mode, puts `FSM` in
Ready and responds OK; the output buffer, the tables and what the host has yet to issue are left alone. -/
def Obligations.SessionOpenZeroesTheDecoderState : Prop :=
  ∀ (mode : Mode) (s : State), s.fsm = .idle ∨ s.fsm = .ready →
    ∃ t, exec (.sessionOpen mode) s = .next t ∧ t.fsm = .ready ∧ t.cfgMode = mode ∧ t.resp = some .ok ∧
      (∀ slot i, t.larAt slot i = 0) ∧ t.larSlot = 0 ∧ (∀ i : Fin 9, t.v[i] = 0) ∧
      (∀ a : Fin 280, t.exc[a] = 0) ∧ t.msr = 0 ∧
      t.pcm = s.pcm ∧ t.params = s.params ∧ t.inputs = s.inputs

/-- O27. R162: SESSION_CLOSE in Ready puts `FSM` in Idle and responds OK, producing no samples; in Idle it has
no effect and responds OK. -/
def Obligations.SessionCloseEndsTheSession : Prop :=
  ∀ s : State,
    (s.fsm = .ready → ∃ t, exec .sessionClose s = .next t ∧ t.fsm = .idle ∧ t.resp = some .ok ∧
      t.pcm = s.pcm ∧ t.params = s.params ∧ t.inputs = s.inputs) ∧
    (s.fsm = .idle → exec .sessionClose s = .next { s with resp := some .ok })

/-- O28. R141, R142, R143, R145: a DECODE_FRAME in Idle responds NoSession, whatever the length of its input;
in Ready with fewer than `PAD_LEAD + PAYLOAD_BITS(CFG_MODE)` input bits it responds TruncatedInput; in both
cases nothing but the response changes, the output buffer included; in Ready with that many bits it never runs
out. -/
def Obligations.FailedDecodeChangesNothing : Prop :=
  ∀ (frame : List Byte) (s : State),
    (s.fsm = .idle → exec (.decodeFrame frame) s = .next { s with resp := some .noSession }) ∧
    (s.fsm = .ready → 8 * frame.length < s.params.padLead.bits + payloadBits s.cfgMode →
      exec (.decodeFrame frame) s = .next { s with resp := some .truncatedInput }) ∧
    (s.fsm = .ready → s.params.padLead.bits + payloadBits s.cfgMode ≤ 8 * frame.length →
      ∃ t, exec (.decodeFrame frame) s = .next t ∧ t.resp = some .ok)

/-- O29. 60_exceptions.md, "There is no return instruction", whose clause the spec marks derived from R141:
after a failed DECODE_FRAME the next valid one does exactly what it would have done had the failed one not
been issued. -/
def Obligations.FailedDecodeLeavesNoTrace : Prop :=
  ∀ (bad good : List Byte) (s : State), s.fsm = .ready → ¬ longEnough s bad → longEnough s good →
    ∃ t u, exec (.decodeFrame bad) s = .next t ∧ exec (.decodeFrame good) t = .next u ∧
      exec (.decodeFrame good) s = .next u ∧ u.resp = some .ok

/-- O30. R125: in Ready, a DECODE_FRAME whose input holds the payload completes: it responds OK, `FSM` is
Ready again, `CFG_MODE`, the tables and what the host has yet to issue are unchanged. -/
def Obligations.CompleteFrameDecodesWithOk : Prop :=
  ∀ (frame : List Byte) (s : State), s.fsm = .ready → longEnough s frame →
    ∃ t, exec (.decodeFrame frame) s = .next t ∧ t.resp = some .ok ∧ t.fsm = .ready ∧
      t.cfgMode = s.cfgMode ∧ t.params = s.params ∧ t.inputs = s.inputs

/-- O31. R126: a decode is the fixed list of operations, run one after another on the frame's fields: step 1
`LARDEC`; step 2, four times the three reads, `LTSYN` with the clamped lag and `APCMADD`; step 3 `HISTSHIFT`;
step 4 `STSYN`; step 5 `DEEMPH`; step 6 `LARTOGGLE`. The decoder state and the samples a DECODE_FRAME leaves
are those the list leaves. -/
def Obligations.DecodeRunsTheStepList : Prop :=
  ∀ (frame : List Byte) (s : State) (f : Frame), s.fsm = .ready →
    decodeFrame s.params.padLead s.cfgMode frame = .ok f →
    ∃ t u, exec (.decodeFrame frame) s = .next t ∧
      execAll (frameProgram s.params f) { s with fsm := .decoding, bitpos := 0, frameIn := frame } = some u ∧
      u.bitpos = payloadBits s.cfgMode ∧ t.resp = some .ok ∧ t.fsm = .ready ∧
      t.cfgMode = u.cfgMode ∧ t.lar = u.lar ∧ t.larSlot = u.larSlot ∧ t.v = u.v ∧ t.exc = u.exc ∧
      t.msr = u.msr ∧ t.pcm = u.pcm

/-- O32. R128, R131: a decode writes the frame's LAR values to the slot `LAR_SLOT` named before it, keeps the
other slot, and flips `LAR_SLOT` once. -/
def Obligations.DecodeWritesTheCurrentSlotThenToggles : Prop :=
  ∀ (frame : List Byte) (s : State), s.fsm = .ready → longEnough s frame →
    ∃ t, exec (.decodeFrame frame) s = .next t ∧ t.larSlot = s.larSlot ^^^ 1 ∧
      ∀ i : Fin 8, t.larAt (s.larSlot ^^^ 1) i = s.larAt (s.larSlot ^^^ 1) i ∧
        ∃ c, readBits frame (s.params.padLead.bits + (larRow i).start) (larRow i).width = some c ∧
          (t.larAt s.larSlot i).toInt = larOf i c

/-- O33. R46, R130: after a decode the carried region `EXC[0..119]` holds the last 120 excitation samples of
the frame, `EXC[160..279]`. -/
def Obligations.DecodeCarriesTheHistoryTail : Prop :=
  ∀ (frame : List Byte) (s : State), s.fsm = .ready → longEnough s frame →
    ∃ t, exec (.decodeFrame frame) s = .next t ∧
      ∀ a : Fin 120, t.exc[a.val] = t.exc[160 + a.val]

/-- O34. R32: the samples and the next decoder state are determined by the decoder state, the tables and the
payload bits: two states that agree on those, given inputs with the same payload bits, end in the same decoder
state with the same samples, whatever else differs. -/
def Obligations.DecodeIsAPureFunction : Prop :=
  ∀ (f g : List Byte) (s s' : State), SameDecoderState s s' → s.params = s'.params → s.fsm = .ready →
    longEnough s f → longEnough s g → samePayload s f g →
    ∃ t t', exec (.decodeFrame f) s = .next t ∧ exec (.decodeFrame g) s' = .next t' ∧
      SameDecoderState t t' ∧ t.pcm = t'.pcm ∧ t.resp = t'.resp

/-- O35. R69: the padding bits and everything after the last payload bit are ignored: from one state, two long
enough inputs with the same payload bits have exactly the same outcome. -/
def Obligations.PaddingAndTrailingBitsAreIgnored : Prop :=
  ∀ (f g : List Byte) (s : State), longEnough s f → longEnough s g → samePayload s f g →
    ∃ t, exec (.decodeFrame f) s = .next t ∧ exec (.decodeFrame g) s = .next t

/-- O36. 10_state.md, what the spec marks derived of `V[8]` (from R102) and of `EXC[120..279]` (from R111 and
R129), and R26: `V[8]`, `EXC[120..279]`, the working registers, the held frame, the output buffer and the last
response before a decode have no influence on its outcome. -/
def Obligations.DeadStateCannotMatter : Prop :=
  ∀ (frame l : List Byte) (s : State) (w : Word) (e : Vector Sample 280) (q : Vector Word 8) (b : Nat)
    (p : Vector Sample 160) (r : Int) (o : Option Resp),
    s.fsm = .ready → longEnough s frame → (∀ a : Fin 120, e[a.val] = s.exc[a.val]) →
    ∃ t, exec (.decodeFrame frame) s = .next t ∧
      exec (.decodeFrame frame) { s with
        v := s.v.set 8 w, exc := e, rrp := q, bitpos := b, frameIn := l, pcm := p, ret := r, resp := o } =
          .next t

/-- O37. 10_state.md, "Hidden state", which the spec marks derived from R90, R100 and R131: with the two LAR
slots exchanged and `LAR_SLOT` flipped, a DECODE_FRAME gives the same response and samples and ends in the
exchanged state; O59 says it of every step. -/
def Obligations.SlotExchangeIsIndistinguishable : Prop :=
  ∀ (frame : List Byte) (s : State),
    ∃ t, exec (.decodeFrame frame) s = .next t ∧
      exec (.decodeFrame frame) s.exchangeSlots = .next t.exchangeSlots ∧
      t.exchangeSlots.pcm = t.pcm ∧ t.exchangeSlots.resp = t.resp

/-- O38. 47_orchestrator.md, "Permitted reorderings", which the spec marks derived: HISTSHIFT may run after
STSYN, or after STSYN and DEEMPH, with identical results. -/
def Obligations.HistshiftMayRunAfterTheFilters : Prop :=
  ∀ s : State, ∃ t u, execAll [.histshift, .stsyn] s = some t ∧ execAll [.stsyn, .histshift] s = some t ∧
    execAll [.histshift, .stsyn, .deemph] s = some u ∧ execAll [.stsyn, .deemph, .histshift] s = some u

/-- O39. 10_state.md, "Invariants", which the spec marks derived, and R127: every step keeps the invariant:
`FSM` is Idle or Ready, and in Ready every LAR register holds 0 or a value of its coefficient's table. -/
def Obligations.EveryStepKeepsTheInvariant : Prop :=
  ∀ s t : State, Inv s → step s = .next t → Inv t

/-- O40. The state after a hard reset (R161; its registers are the model's choice, log entry 2) meets the
invariant. -/
def Obligations.ResetMeetsTheInvariant : Prop :=
  Inv State.reset

/-- O41. R10, R11: no instruction and no step changes the tables or `PAD_LEAD`; of the instructions only the
two session commands change `CFG_MODE`, and a step that changes it took a session command or the hard reset
input (which leaves it unspecified, R161; log entries 6 and 11). -/
def Obligations.ParametersAndModeAreStable : Prop :=
  (∀ (i : Instr) (s t : State), exec i s = .next t → t.params = s.params ∧
    ((∀ m, i ≠ .sessionOpen m) → i ≠ .sessionClose → t.cfgMode = s.cfgMode)) ∧
  ∀ s t : State, step s = .next t → t.params = s.params ∧
    (t.cfgMode ≠ s.cfgMode → ∃ rest, s.inputs = .hardReset :: rest ∨
      ∃ r, s.inputs = .command r :: rest ∧ (r.cmd = .sessionOpen ∨ r.cmd = .sessionClose))

/-- O42. R161: the only way out of Idle is SESSION_OPEN. -/
def Obligations.OnlySessionOpenLeavesIdle : Prop :=
  ∀ s t : State, s.fsm = .idle → step s = .next t → t.fsm ≠ .idle →
    t.fsm = .ready ∧ ∃ mode bytes rest, s.inputs = .command ⟨.sessionOpen, mode, bytes⟩ :: rest

/-- O43. R161: in Idle nothing depends on what the decoder state holds: two Idle states that differ only in it
step to the same `FSM`, response and samples, and where a session is opened to the same decoder state. -/
def Obligations.IdleContentsCannotMatter : Prop :=
  ∀ s s' : State, s.fsm = .idle → s'.fsm = .idle → s.inputs = s'.inputs → s.params = s'.params →
    s.pcm = s'.pcm → s.resp = s'.resp →
    ∃ t t', step s = .next t ∧ step s' = .next t' ∧ t.fsm = t'.fsm ∧ t.resp = t'.resp ∧ t.pcm = t'.pcm ∧
      t.inputs = t'.inputs ∧ t.params = t'.params ∧ (t.fsm = .ready → SameDecoderState t t')

/-- O44. R161: the hard reset input, in any state, puts `FSM` in Idle; that it writes no output, gives no
response and changes no table is the model's choice (log entry 11). -/
def Obligations.HardResetPutsTheBlockInIdle : Prop :=
  ∀ (s : State) (rest : List Input), s.inputs = .hardReset :: rest →
    ∃ t, step s = .next t ∧ t.fsm = .idle ∧ t.inputs = rest ∧ t.pcm = s.pcm ∧ t.resp = s.resp ∧
      t.params = s.params

/-- O45. A step runs the decoded instruction: when the oldest input is a command and none is in progress, the
step is exec of the instruction the command port selects, the command taken off the inputs; and an
opcode-table word placed with withFetchWord is run by the very next step (R18, R50; that the block keeps what
the host has issued is the model's choice, log entries 1 and 18). -/
def Obligations.StepRunsTheOldestCommand : Prop :=
  (∀ (s : State) (r : Request) (rest : List Input), s.inputs = .command r :: rest → s.fsm ≠ .decoding →
    step s = exec (decode r) { s with inputs := rest }) ∧
  ∀ (s : State) (nbits w : Nat) (i : Instr), decodeTableWord nbits w = some i →
    step (s.withFetchWord nbits w) = exec i { s with fsm := if s.fsm = .decoding then .ready else s.fsm }

/-- O46. R151, R50: with nothing to accept the block waits and all state survives; while a command is in
progress no other is accepted, which the model renders as no change (log entry 10). -/
def Obligations.WaitingPreservesAllState : Prop :=
  ∀ s : State, (s.inputs = [] → step s = .next s) ∧
    (∀ r rest, s.fsm = .decoding → s.inputs = .command r :: rest → step s = .next s) ∧
    (s.fsm = .decoding → (∀ frame, exec (.decodeFrame frame) s = .next s) ∧
      (∀ mode, exec (.sessionOpen mode) s = .next s) ∧ exec .sessionClose s = .next s)

/-- O47. Nothing stops: every instruction, on every operand and in every state, gives a next state, and so
does every step. Of the frames and operands a command can meet this is R68; that a next state is given as well
by reflect(-2^31) (log entry 5), by a micro-operation short of bits (log entry 9), by a command in Decoding
(log entry 10) and by LTSYN with an unclamped lag (log entry 17) is the model's choice. -/
def Obligations.EveryInstructionGivesANextState : Prop :=
  (∀ (i : Instr) (s : State), ∃ t, exec i s = .next t) ∧ ∀ s : State, ∃ t, step s = .next t

/-- O48. R135: every command accepted gets exactly one response, in the step that accepts it; a response with
samples is the OK to a DECODE_FRAME, and with every other response the output buffer is untouched. -/
def Obligations.EveryCommandGetsOneResponse : Prop :=
  ∀ (s : State) (r : Request) (rest : List Input), s.inputs = .command r :: rest → s.fsm ≠ .decoding →
    ∃ t c, step s = .next t ∧ t.inputs = rest ∧ t.resp = some c ∧ t.fsm ≠ .decoding ∧
      (r.cmd ≠ .decodeFrame → c = .ok) ∧ (r.cmd ≠ .decodeFrame ∨ c ≠ .ok → t.pcm = s.pcm)

/-- O49. R60, R63, R64, R66: in every mode and with either padding, decoding the bytes of a well-formed frame
gives the frame back. -/
def Obligations.FrameRoundTrip : Prop :=
  ∀ (p : PadLead) (m : Mode) (f : Frame), f.wf p m = true → decodeFrame p m (encodeFrame p m f) = .ok f

/-- O50. R68: every 33-byte pattern is a frame of `MODE_FR`: it decodes to well-formed fields, and encoding
those gives the same 33 bytes, so no bit is dropped. -/
def Obligations.EveryPatternIsAFrame : Prop :=
  ∀ bytes : List Byte, bytes.length = 33 →
    ∃ f, decodeFrame .four .fr bytes = .ok f ∧ f.wf .four .fr = true ∧ encodeFrame .four .fr f = bytes

/-- O51. R63, R65: the fields of a `MODE_FR` frame stand at the payload bits of the rules' tables, and payload
bit n is frame bit `PAD_LEAD + n`. -/
def Obligations.FieldsStandAtTheirPositions : Prop :=
  ∀ (p : PadLead) (bytes : List Byte), p.bits + 260 ≤ 8 * bytes.length →
    ∃ f, decodeFrame p .fr bytes = .ok f ∧ readBits bytes 0 p.bits = some f.pad ∧
      (∀ i : Fin 8, readBits bytes (p.bits + (larRow i).start) (larRow i).width = some f.larc[i]) ∧
      ∀ (k : Fin 4) (b : Nat), b = p.bits + 36 + 56 * k.val →
        readBits bytes b 7 = some f.sub[k].lag ∧ readBits bytes (b + 7) 2 = some f.sub[k].gain ∧
        readBits bytes (b + 9) 2 = some f.sub[k].off ∧ readBits bytes (b + 11) 6 = some f.sub[k].maxIdx ∧
        ∀ j : Fin 13, readBits bytes (b + 17 + 3 * j.val) 3 = some f.sub[k].x[j]

/-- O52. 30_encoding.md, the worked packing example, which the spec marks derived from R60 to R65: its frame
packs to the 33 bytes of T-ENC-1 and those bytes decode to it; with the padding bits changed only the padding
field changes; one byte fewer is no frame. -/
def Obligations.WorkedPackingExample : Prop :=
  encodeFrame .four .fr packedExample = packedExampleBytes ∧
    decodeFrame .four .fr packedExampleBytes = .ok packedExample ∧
    decodeFrame .four .fr (0x58 :: packedExampleBytes.tail) = .ok { packedExample with pad := 5 } ∧
    decodeFrame .four .fr packedExampleBytes.dropLast = .error .truncatedInput

/-- O53. R66: the payload length of a mode is 36 plus, over the four subframes, 17 and the thirteen residual
widths, which is the sum of all field widths; for `MODE_FR` it is 260. -/
def Obligations.PayloadLengthOfAMode : Prop :=
  (∀ m : Mode, payloadBits m = (payloadWidths m).sum ∧
    payloadBits m = 36 + ((List.finRange 4).map fun k => 17 + residualBits m k 13).sum) ∧
    payloadBits .fr = 260

/-- O54. R142: bytes are refused as a frame exactly where they hold fewer bits than the padding and the
payload of the mode. -/
def Obligations.OnlyShortInputIsRefused : Prop :=
  ∀ (p : PadLead) (m : Mode) (bytes : List Byte),
    (8 * bytes.length < p.bits + payloadBits m → decodeFrame p m bytes = .error .truncatedInput) ∧
    (p.bits + payloadBits m ≤ 8 * bytes.length → ∃ f, decodeFrame p m bytes = .ok f)

/-- O55. Encoder and machine agree: decoding the bytes of a well-formed frame stores, for each LAR index of
the frame, the value R90 gives it. -/
def Obligations.EncodedLarsReachTheRegisters : Prop :=
  ∀ (s : State) (f : Frame), s.fsm = .ready → f.wf s.params.padLead s.cfgMode = true →
    ∃ t, exec (.decodeFrame (encodeFrame s.params.padLead s.cfgMode f)) s = .next t ∧ t.resp = some .ok ∧
      ∀ i : Fin 8, (t.larAt s.larSlot i).toInt = larOf i f.larc[i]

/-- O56. R72: the command port selects the three commands and nothing else; no micro-operation or primitive
can be issued. -/
def Obligations.CommandPortSelectsTheCommands : Prop :=
  (∀ mode bytes, decode ⟨.sessionOpen, mode, bytes⟩ = .sessionOpen mode ∧
    decode ⟨.decodeFrame, mode, bytes⟩ = .decodeFrame bytes ∧ decode ⟨.sessionClose, mode, bytes⟩ = .sessionClose) ∧
  ∀ i : Instr, (∃ r, decode r = i) ↔ (∃ r, encode i = some r)

/-- O57. 44_long_term_synth.md, "History requirement", whose clause the spec marks derived from R33 and R111:
with the carried history all 0, as on the first frame of a session, LTSYN of subframe 0 writes forty zeros
whatever the lag and the gain; for a lag outside 40..120, which R111 never passes, that is the model's choice
(log entry 17). -/
def Obligations.FirstSubframeOfASessionIsZero : Prop :=
  ∀ (lag : Nat) (g : BitVec 16) (s : State), (∀ a : Fin 120, s.exc[a.val] = 0) →
    ∃ t, exec (.ltsyn 0 lag g) s = .next t ∧ ∀ n : Fin 40, t.exc[120 + n.val] = 0

/-- O58. R161: right after a hard reset `FSM` is Idle; that no response has been given and no command issued
is the model's choice (log entries 1 and 14). -/
def Obligations.ResetIsIdle : Prop :=
  State.reset.fsm = .idle ∧ State.reset.resp = none ∧ State.reset.inputs = []

/-- O59. 10_state.md, "Hidden state", which the spec marks derived from R90, R100 and R131: exchanging the two
LAR slots together with flipping `LAR_SLOT` gives an indistinguishable machine: two states alike but for that
exchange step, on every input of the host, to states alike but for it, with the same `FSM`, response and
samples. -/
def Obligations.SlotExchangeIsKeptByEveryStep : Prop :=
  ∀ s s' : State, SlotsExchanged s s' →
    ∃ t t', step s = .next t ∧ step s' = .next t' ∧ SlotsExchanged t t' ∧
      t'.fsm = t.fsm ∧ t'.resp = t.resp ∧ t'.pcm = t.pcm ∧ t'.inputs = t.inputs
end

