-- ==== Sys2Proof/Laws/Arith.lean ====
section
/-! SUPPORT. The laws of the exact arithmetic, of saturation and of narrowing. -/

namespace Sys2Proof.Machine

theorem roundMul_def (a b : Int) : roundMul a b = (a * b + 16384) / 32768 := by
  simp [roundMul, asr]

/-- `round_mul` is the product in Q15 rounded to nearest, ties upward (R80). -/
theorem roundMul_bounds (a b : Int) :
    32768 * roundMul a b ≤ a * b + 16384 ∧ a * b + 16384 < 32768 * (roundMul a b + 1) := by
  rw [roundMul_def]; constructor <;> omega

@[simp] theorem roundMul_zero (a : Int) : roundMul a 0 = 0 := by simp [roundMul_def]

@[simp] theorem zero_roundMul (a : Int) : roundMul 0 a = 0 := by simp [roundMul_def]

theorem roundMul_comm (a b : Int) : roundMul a b = roundMul b a := by
  rw [roundMul_def, roundMul_def, Int.mul_comm]

/-- `clip16` gives a 16-bit value (R81). -/
theorem clip16_range (x : Int) : -32768 ≤ clip16 x ∧ clip16 x ≤ 32767 := by
  unfold clip16; split <;> [omega; split <;> omega]

/-- `clip16` leaves a 16-bit value as it is (R81). -/
theorem clip16_of_fits {x : Int} (h : -32768 ≤ x) (h' : x ≤ 32767) : clip16 x = x := by
  unfold clip16; split <;> [omega; split <;> omega]

/-- `wrap16` gives a 16-bit value (R82). -/
theorem wrap16_range (x : Int) : -32768 ≤ wrap16 x ∧ wrap16 x ≤ 32767 := by
  unfold wrap16; omega

/-- `wrap16` leaves a 16-bit value as it is (R82). -/
theorem wrap16_of_fits {x : Int} (h : -32768 ≤ x) (h' : x ≤ 32767) : wrap16 x = x := by
  unfold wrap16; omega

/-- `wrap32` gives a 32-bit value (R83). -/
theorem wrap32_range (x : Int) : -(2 ^ 31) ≤ wrap32 x ∧ wrap32 x < 2 ^ 31 := by
  unfold wrap32; omega

/-- `wrap32` leaves a 32-bit value as it is (R83). -/
theorem wrap32_of_fits {x : Int} (h : -(2 ^ 31) ≤ x) (h' : x < 2 ^ 31) : wrap32 x = x := by
  unfold wrap32; omega

/-- A sample holds the low 16 bits of what is stored (R24, R82). -/
@[simp] theorem toSample_toInt (x : Int) : (toSample x).toInt = wrap16 x := by
  simp only [toSample, BitVec.toInt_ofInt, wrap16, Int.bmod]
  split <;> omega

/-- A word holds the low 32 bits of what is stored (R7, R83). -/
@[simp] theorem toWord_toInt (x : Int) : (toWord x).toInt = wrap32 x := by
  simp only [toWord, BitVec.toInt_ofInt, wrap32, Int.bmod]
  split <;> omega

@[simp] theorem wrap16_wrap16 (x : Int) : wrap16 (wrap16 x) = wrap16 x :=
  wrap16_of_fits (wrap16_range x).1 (wrap16_range x).2

@[simp] theorem wrap32_wrap32 (x : Int) : wrap32 (wrap32 x) = wrap32 x :=
  wrap32_of_fits (wrap32_range x).1 (wrap32_range x).2

/-- The value of a sample is a 16-bit value. -/
theorem sample_range (x : Sample) : -32768 ≤ x.toInt ∧ x.toInt ≤ 32767 := by
  have := BitVec.le_toInt x; have := BitVec.toInt_lt (x := x); constructor <;> omega

/-- The value of a word is a 32-bit value. -/
theorem word_range (x : Word) : -(2 ^ 31) ≤ x.toInt ∧ x.toInt < 2 ^ 31 := by
  have := BitVec.le_toInt x; have := BitVec.toInt_lt (x := x); constructor <;> omega

@[simp] theorem wrap16_toInt (x : Sample) : wrap16 x.toInt = x.toInt :=
  wrap16_of_fits (sample_range x).1 (sample_range x).2

@[simp] theorem wrap32_toInt (x : Word) : wrap32 x.toInt = x.toInt :=
  wrap32_of_fits (word_range x).1 (word_range x).2

@[simp] theorem toSample_of_toInt (x : Sample) : toSample x.toInt = x :=
  BitVec.eq_of_toInt_eq (by simp)

/-- `a & ~7` is the multiple of 8 at or just below a (R13, R121). -/
theorem mask7_spec (a : Int) : mask7 a % 8 = 0 ∧ mask7 a ≤ a ∧ a < mask7 a + 8 := by
  unfold mask7; omega

end Sys2Proof.Machine
end

