-- ==== Sys2Proof/Laws/Loops.lean ====
section
/-! SUPPORT. The inductions over the loops, packaged once: a property indexed by the iteration that holds
before the loop and is carried by every iteration holds after it. -/

namespace Sys2Proof.Machine

variable {σ : Type}

@[simp] theorem forUp_zero (body : (i : Nat) → i < 0 → σ → σ) (s : σ) : forUp 0 body s = s := rfl

theorem forUp_succ (n : Nat) (body : (i : Nat) → i < n + 1 → σ → σ) (s : σ) :
    forUp (n + 1) body s =
      body n (Nat.lt_succ_self n) (forUp n (fun i h => body i (Nat.lt_succ_of_lt h)) s) := rfl

@[simp] theorem forUpM_zero (body : (i : Nat) → i < 0 → σ → Option σ) (s : σ) :
    forUpM 0 body s = some s := rfl

theorem forUpM_succ (n : Nat) (body : (i : Nat) → i < n + 1 → σ → Option σ) (s : σ) :
    forUpM (n + 1) body s =
      (forUpM n (fun i h => body i (Nat.lt_succ_of_lt h)) s).bind (body n (Nat.lt_succ_self n)) := rfl

@[simp] theorem forDown_zero (body : (i : Nat) → i < 0 → σ → σ) (s : σ) : forDown 0 body s = s := rfl

theorem forDown_succ (n : Nat) (body : (i : Nat) → i < n + 1 → σ → σ) (s : σ) :
    forDown (n + 1) body s =
      forDown n (fun i h => body i (Nat.lt_succ_of_lt h)) (body n (Nat.lt_succ_self n) s) := rfl

/-- An ascending loop carries a property indexed by the number of iterations done. -/
theorem forUp_induct (P : Nat → σ → Prop) (n : Nat) (body : (i : Nat) → i < n → σ → σ) (s : σ)
    (start : P 0 s) (carry : ∀ i (h : i < n) t, P i t → P (i + 1) (body i h t)) :
    P n (forUp n body s) := by
  induction n with
  | zero => exact start
  | succ n ih =>
    exact carry n (Nat.lt_succ_self n) _ (ih _ fun i h t => carry i (Nat.lt_succ_of_lt h) t)

/-- A descending loop carries a property indexed by the number of iterations left. -/
theorem forDown_induct (P : Nat → σ → Prop) (n : Nat) (body : (i : Nat) → i < n → σ → σ) (s : σ)
    (start : P n s) (carry : ∀ i (h : i < n) t, P (i + 1) t → P i (body i h t)) :
    P 0 (forDown n body s) := by
  induction n generalizing s with
  | zero => exact start
  | succ n ih =>
    exact ih _ _ (carry n (Nat.lt_succ_self n) s start) fun i h t => carry i (Nat.lt_succ_of_lt h) t

/-- An ascending loop whose every iteration succeeds where the property holds succeeds, and carries the
property. -/
theorem forUpM_induct (P : Nat → σ → Prop) (n : Nat) (body : (i : Nat) → i < n → σ → Option σ) (s : σ)
    (start : P 0 s) (carry : ∀ i (h : i < n) t, P i t → ∃ u, body i h t = some u ∧ P (i + 1) u) :
    ∃ u, forUpM n body s = some u ∧ P n u := by
  induction n with
  | zero => exact ⟨s, rfl, start⟩
  | succ n ih =>
    obtain ⟨t, ht, hp⟩ :=
      ih (fun i h => body i (Nat.lt_succ_of_lt h)) fun i h t => carry i (Nat.lt_succ_of_lt h) t
    obtain ⟨u, hu, hq⟩ := carry n (Nat.lt_succ_self n) t hp
    exact ⟨u, by rw [forUpM_succ, ht]; exact hu, hq⟩

/-- What a loop that succeeds has carried, where an iteration may fail. -/
theorem forUpM_some (P : Nat → σ → Prop) (n : Nat) (body : (i : Nat) → i < n → σ → Option σ) (s u : σ)
    (done : forUpM n body s = some u) (start : P 0 s)
    (carry : ∀ i (h : i < n) t t', P i t → body i h t = some t' → P (i + 1) t') : P n u := by
  induction n generalizing u with
  | zero => cases done; exact start
  | succ n ih =>
    rw [forUpM_succ] at done
    obtain ⟨t, ht, hu⟩ := Option.bind_eq_some_iff.mp done
    exact carry n (Nat.lt_succ_self n) t u
      (ih _ t ht fun i h => carry i (Nat.lt_succ_of_lt h)) hu

/-- An ascending loop is a sequence of states, each the body's from the one before. -/
theorem forUp_sequence (n : Nat) (body : (i : Nat) → i < n → σ → σ) (s : σ) :
    ∃ seq : Nat → σ, seq 0 = s ∧ (∀ i (h : i < n), seq (i + 1) = body i h (seq i)) ∧
      seq n = forUp n body s := by
  induction n with
  | zero => exact ⟨fun _ => s, rfl, fun i h => absurd h (Nat.not_lt_zero i), rfl⟩
  | succ n ih =>
    obtain ⟨seq, h0, hstep, hn⟩ := ih fun i h => body i (Nat.lt_succ_of_lt h)
    refine ⟨fun i => if i ≤ n then seq i else forUp (n + 1) body s, by simp [h0], ?_, by simp⟩
    intro i h
    by_cases hi : i = n
    · subst hi; simp only [Nat.not_succ_le_self, if_false, Nat.le_refl, if_true, hn, forUp_succ]
    · simp only [show i + 1 ≤ n by omega, show i ≤ n by omega, if_true]
      exact hstep i (by omega)

/-- Two ascending loops over related states end in related states. -/
theorem forUp_related {τ : Type} (R : σ → τ → Prop) (n : Nat) (f : (i : Nat) → i < n → σ → σ)
    (g : (i : Nat) → i < n → τ → τ) (s : σ) (t : τ) (start : R s t)
    (carry : ∀ i (h : i < n) a b, R a b → R (f i h a) (g i h b)) : R (forUp n f s) (forUp n g t) := by
  induction n with
  | zero => exact start
  | succ n ih =>
    exact carry n (Nat.lt_succ_self n) _ _ (ih _ _ fun i h a b => carry i (Nat.lt_succ_of_lt h) a b)

end Sys2Proof.Machine
end

