-- ==== Sys2Proof/Laws/State.lean ====
section
/-! SUPPORT. What each shared update of the state does to each field: true by unfolding, for simp, so
that no later proof unfolds a record update. -/

namespace Sys2Proof.Machine

section setLar

variable (s : State) (slot : Slot) (i : Fin 8) (w : Word)

@[simp] theorem State.setLar_fsm : (s.setLar slot i w).fsm = s.fsm := rfl
@[simp] theorem State.setLar_cfgMode : (s.setLar slot i w).cfgMode = s.cfgMode := rfl
@[simp] theorem State.setLar_lar : (s.setLar slot i w).lar = s.lar.set slot.toFin ((s.lar[slot.toFin]).set i w) := rfl
@[simp] theorem State.setLar_larSlot : (s.setLar slot i w).larSlot = s.larSlot := rfl
@[simp] theorem State.setLar_v : (s.setLar slot i w).v = s.v := rfl
@[simp] theorem State.setLar_exc : (s.setLar slot i w).exc = s.exc := rfl
@[simp] theorem State.setLar_msr : (s.setLar slot i w).msr = s.msr := rfl
@[simp] theorem State.setLar_rrp : (s.setLar slot i w).rrp = s.rrp := rfl
@[simp] theorem State.setLar_bitpos : (s.setLar slot i w).bitpos = s.bitpos := rfl
@[simp] theorem State.setLar_frameIn : (s.setLar slot i w).frameIn = s.frameIn := rfl
@[simp] theorem State.setLar_pcm : (s.setLar slot i w).pcm = s.pcm := rfl
@[simp] theorem State.setLar_resp : (s.setLar slot i w).resp = s.resp := rfl
@[simp] theorem State.setLar_inputs : (s.setLar slot i w).inputs = s.inputs := rfl
@[simp] theorem State.setLar_params : (s.setLar slot i w).params = s.params := rfl
@[simp] theorem State.setLar_ret : (s.setLar slot i w).ret = s.ret := rfl
@[simp] theorem State.setLar_freeCount : (s.setLar slot i w).freeCount = s.freeCount := rfl

end setLar

section setExc

variable (s : State) (a : Fin 280) (x : Int)

@[simp] theorem State.setExc_fsm : (s.setExc a x).fsm = s.fsm := rfl
@[simp] theorem State.setExc_cfgMode : (s.setExc a x).cfgMode = s.cfgMode := rfl
@[simp] theorem State.setExc_lar : (s.setExc a x).lar = s.lar := rfl
@[simp] theorem State.setExc_larSlot : (s.setExc a x).larSlot = s.larSlot := rfl
@[simp] theorem State.setExc_v : (s.setExc a x).v = s.v := rfl
@[simp] theorem State.setExc_exc : (s.setExc a x).exc = s.exc.set a (toSample x) := rfl
@[simp] theorem State.setExc_msr : (s.setExc a x).msr = s.msr := rfl
@[simp] theorem State.setExc_rrp : (s.setExc a x).rrp = s.rrp := rfl
@[simp] theorem State.setExc_bitpos : (s.setExc a x).bitpos = s.bitpos := rfl
@[simp] theorem State.setExc_frameIn : (s.setExc a x).frameIn = s.frameIn := rfl
@[simp] theorem State.setExc_pcm : (s.setExc a x).pcm = s.pcm := rfl
@[simp] theorem State.setExc_resp : (s.setExc a x).resp = s.resp := rfl
@[simp] theorem State.setExc_inputs : (s.setExc a x).inputs = s.inputs := rfl
@[simp] theorem State.setExc_params : (s.setExc a x).params = s.params := rfl
@[simp] theorem State.setExc_ret : (s.setExc a x).ret = s.ret := rfl
@[simp] theorem State.setExc_freeCount : (s.setExc a x).freeCount = s.freeCount := rfl

end setExc

section setPcm

variable (s : State) (i : Fin 160) (x : Int)

@[simp] theorem State.setPcm_fsm : (s.setPcm i x).fsm = s.fsm := rfl
@[simp] theorem State.setPcm_cfgMode : (s.setPcm i x).cfgMode = s.cfgMode := rfl
@[simp] theorem State.setPcm_lar : (s.setPcm i x).lar = s.lar := rfl
@[simp] theorem State.setPcm_larSlot : (s.setPcm i x).larSlot = s.larSlot := rfl
@[simp] theorem State.setPcm_v : (s.setPcm i x).v = s.v := rfl
@[simp] theorem State.setPcm_exc : (s.setPcm i x).exc = s.exc := rfl
@[simp] theorem State.setPcm_msr : (s.setPcm i x).msr = s.msr := rfl
@[simp] theorem State.setPcm_rrp : (s.setPcm i x).rrp = s.rrp := rfl
@[simp] theorem State.setPcm_bitpos : (s.setPcm i x).bitpos = s.bitpos := rfl
@[simp] theorem State.setPcm_frameIn : (s.setPcm i x).frameIn = s.frameIn := rfl
@[simp] theorem State.setPcm_pcm : (s.setPcm i x).pcm = s.pcm.set i (toSample x) := rfl
@[simp] theorem State.setPcm_resp : (s.setPcm i x).resp = s.resp := rfl
@[simp] theorem State.setPcm_inputs : (s.setPcm i x).inputs = s.inputs := rfl
@[simp] theorem State.setPcm_params : (s.setPcm i x).params = s.params := rfl
@[simp] theorem State.setPcm_ret : (s.setPcm i x).ret = s.ret := rfl
@[simp] theorem State.setPcm_freeCount : (s.setPcm i x).freeCount = s.freeCount := rfl

end setPcm

section respond

variable (s : State) (r : Resp)

@[simp] theorem State.respond_fsm : (s.respond r).fsm = s.fsm := rfl
@[simp] theorem State.respond_cfgMode : (s.respond r).cfgMode = s.cfgMode := rfl
@[simp] theorem State.respond_lar : (s.respond r).lar = s.lar := rfl
@[simp] theorem State.respond_larSlot : (s.respond r).larSlot = s.larSlot := rfl
@[simp] theorem State.respond_v : (s.respond r).v = s.v := rfl
@[simp] theorem State.respond_exc : (s.respond r).exc = s.exc := rfl
@[simp] theorem State.respond_msr : (s.respond r).msr = s.msr := rfl
@[simp] theorem State.respond_rrp : (s.respond r).rrp = s.rrp := rfl
@[simp] theorem State.respond_bitpos : (s.respond r).bitpos = s.bitpos := rfl
@[simp] theorem State.respond_frameIn : (s.respond r).frameIn = s.frameIn := rfl
@[simp] theorem State.respond_pcm : (s.respond r).pcm = s.pcm := rfl
@[simp] theorem State.respond_resp : (s.respond r).resp = some r := rfl
@[simp] theorem State.respond_inputs : (s.respond r).inputs = s.inputs := rfl
@[simp] theorem State.respond_params : (s.respond r).params = s.params := rfl
@[simp] theorem State.respond_ret : (s.respond r).ret = s.ret := rfl
@[simp] theorem State.respond_freeCount : (s.respond r).freeCount = s.freeCount := rfl

end respond

section raise

variable (s : State) (r : Resp)

@[simp] theorem State.raise_fsm : (s.raise r).fsm = if s.fsm = .decoding then .ready else s.fsm := rfl
@[simp] theorem State.raise_cfgMode : (s.raise r).cfgMode = s.cfgMode := rfl
@[simp] theorem State.raise_lar : (s.raise r).lar = s.lar := rfl
@[simp] theorem State.raise_larSlot : (s.raise r).larSlot = s.larSlot := rfl
@[simp] theorem State.raise_v : (s.raise r).v = s.v := rfl
@[simp] theorem State.raise_exc : (s.raise r).exc = s.exc := rfl
@[simp] theorem State.raise_msr : (s.raise r).msr = s.msr := rfl
@[simp] theorem State.raise_rrp : (s.raise r).rrp = s.rrp := rfl
@[simp] theorem State.raise_bitpos : (s.raise r).bitpos = s.bitpos := rfl
@[simp] theorem State.raise_frameIn : (s.raise r).frameIn = s.frameIn := rfl
@[simp] theorem State.raise_pcm : (s.raise r).pcm = s.pcm := rfl
@[simp] theorem State.raise_resp : (s.raise r).resp = some r := rfl
@[simp] theorem State.raise_inputs : (s.raise r).inputs = s.inputs := rfl
@[simp] theorem State.raise_params : (s.raise r).params = s.params := rfl
@[simp] theorem State.raise_ret : (s.raise r).ret = s.ret := rfl
@[simp] theorem State.raise_freeCount : (s.raise r).freeCount = s.freeCount := rfl

end raise

section discardWork

variable (s : State)

@[simp] theorem State.discardWork_fsm : (s.discardWork).fsm = s.fsm := rfl
@[simp] theorem State.discardWork_cfgMode : (s.discardWork).cfgMode = s.cfgMode := rfl
@[simp] theorem State.discardWork_lar : (s.discardWork).lar = s.lar := rfl
@[simp] theorem State.discardWork_larSlot : (s.discardWork).larSlot = s.larSlot := rfl
@[simp] theorem State.discardWork_v : (s.discardWork).v = s.v := rfl
@[simp] theorem State.discardWork_exc : (s.discardWork).exc = s.exc := rfl
@[simp] theorem State.discardWork_msr : (s.discardWork).msr = s.msr := rfl
@[simp] theorem State.discardWork_rrp : (s.discardWork).rrp = Config.freeRrp s.freeCount := rfl
@[simp] theorem State.discardWork_bitpos : (s.discardWork).bitpos = Config.freeBitpos s.freeCount := rfl
@[simp] theorem State.discardWork_frameIn : (s.discardWork).frameIn = [] := rfl
@[simp] theorem State.discardWork_pcm : (s.discardWork).pcm = s.pcm := rfl
@[simp] theorem State.discardWork_resp : (s.discardWork).resp = s.resp := rfl
@[simp] theorem State.discardWork_inputs : (s.discardWork).inputs = s.inputs := rfl
@[simp] theorem State.discardWork_params : (s.discardWork).params = s.params := rfl
@[simp] theorem State.discardWork_ret : (s.discardWork).ret = Config.freeRet s.freeCount := rfl
@[simp] theorem State.discardWork_freeCount : (s.discardWork).freeCount = s.freeCount + 1 := rfl

end discardWork

section discardSession

variable (s : State)

@[simp] theorem State.discardSession_fsm : (s.discardSession).fsm = .idle := rfl
@[simp] theorem State.discardSession_cfgMode : (s.discardSession).cfgMode = Config.freeMode s.freeCount := rfl
@[simp] theorem State.discardSession_lar : (s.discardSession).lar = Config.freeLar s.freeCount := rfl
@[simp] theorem State.discardSession_larSlot : (s.discardSession).larSlot = Config.freeLarSlot s.freeCount := rfl
@[simp] theorem State.discardSession_v : (s.discardSession).v = Config.freeV s.freeCount := rfl
@[simp] theorem State.discardSession_exc : (s.discardSession).exc = Config.freeExc s.freeCount := rfl
@[simp] theorem State.discardSession_msr : (s.discardSession).msr = Config.freeMsr s.freeCount := rfl
@[simp] theorem State.discardSession_rrp : (s.discardSession).rrp = s.rrp := rfl
@[simp] theorem State.discardSession_bitpos : (s.discardSession).bitpos = s.bitpos := rfl
@[simp] theorem State.discardSession_frameIn : (s.discardSession).frameIn = s.frameIn := rfl
@[simp] theorem State.discardSession_pcm : (s.discardSession).pcm = s.pcm := rfl
@[simp] theorem State.discardSession_resp : (s.discardSession).resp = s.resp := rfl
@[simp] theorem State.discardSession_inputs : (s.discardSession).inputs = s.inputs := rfl
@[simp] theorem State.discardSession_params : (s.discardSession).params = s.params := rfl
@[simp] theorem State.discardSession_ret : (s.discardSession).ret = s.ret := rfl
@[simp] theorem State.discardSession_freeCount : (s.discardSession).freeCount = s.freeCount + 1 := rfl

end discardSession

section freshSession

variable (s : State) (mode : Mode)

@[simp] theorem State.freshSession_fsm : (s.freshSession mode).fsm = .ready := rfl
@[simp] theorem State.freshSession_cfgMode : (s.freshSession mode).cfgMode = mode := rfl
@[simp] theorem State.freshSession_lar : (s.freshSession mode).lar = Vector.replicate 2 (Vector.replicate 8 0) := rfl
@[simp] theorem State.freshSession_larSlot : (s.freshSession mode).larSlot = 0 := rfl
@[simp] theorem State.freshSession_v : (s.freshSession mode).v = Vector.replicate 9 0 := rfl
@[simp] theorem State.freshSession_exc : (s.freshSession mode).exc = Vector.replicate 280 0 := rfl
@[simp] theorem State.freshSession_msr : (s.freshSession mode).msr = 0 := rfl
@[simp] theorem State.freshSession_rrp : (s.freshSession mode).rrp = s.rrp := rfl
@[simp] theorem State.freshSession_bitpos : (s.freshSession mode).bitpos = s.bitpos := rfl
@[simp] theorem State.freshSession_frameIn : (s.freshSession mode).frameIn = s.frameIn := rfl
@[simp] theorem State.freshSession_pcm : (s.freshSession mode).pcm = s.pcm := rfl
@[simp] theorem State.freshSession_resp : (s.freshSession mode).resp = s.resp := rfl
@[simp] theorem State.freshSession_inputs : (s.freshSession mode).inputs = s.inputs := rfl
@[simp] theorem State.freshSession_params : (s.freshSession mode).params = s.params := rfl
@[simp] theorem State.freshSession_ret : (s.freshSession mode).ret = s.ret := rfl
@[simp] theorem State.freshSession_freeCount : (s.freshSession mode).freeCount = s.freeCount := rfl

end freshSession

section lartoggle

variable (s : State)

@[simp] theorem State.lartoggle_fsm : (s.lartoggle).fsm = s.fsm := rfl
@[simp] theorem State.lartoggle_cfgMode : (s.lartoggle).cfgMode = s.cfgMode := rfl
@[simp] theorem State.lartoggle_lar : (s.lartoggle).lar = s.lar := rfl
@[simp] theorem State.lartoggle_larSlot : (s.lartoggle).larSlot = otherSlot s.larSlot := rfl
@[simp] theorem State.lartoggle_v : (s.lartoggle).v = s.v := rfl
@[simp] theorem State.lartoggle_exc : (s.lartoggle).exc = s.exc := rfl
@[simp] theorem State.lartoggle_msr : (s.lartoggle).msr = s.msr := rfl
@[simp] theorem State.lartoggle_rrp : (s.lartoggle).rrp = s.rrp := rfl
@[simp] theorem State.lartoggle_bitpos : (s.lartoggle).bitpos = s.bitpos := rfl
@[simp] theorem State.lartoggle_frameIn : (s.lartoggle).frameIn = s.frameIn := rfl
@[simp] theorem State.lartoggle_pcm : (s.lartoggle).pcm = s.pcm := rfl
@[simp] theorem State.lartoggle_resp : (s.lartoggle).resp = s.resp := rfl
@[simp] theorem State.lartoggle_inputs : (s.lartoggle).inputs = s.inputs := rfl
@[simp] theorem State.lartoggle_params : (s.lartoggle).params = s.params := rfl
@[simp] theorem State.lartoggle_ret : (s.lartoggle).ret = s.ret := rfl
@[simp] theorem State.lartoggle_freeCount : (s.lartoggle).freeCount = s.freeCount := rfl

end lartoggle

section startFrame

variable (s : State) (frame : List Byte)

@[simp] theorem State.startFrame_fsm : (s.startFrame frame).fsm = .decoding := rfl
@[simp] theorem State.startFrame_cfgMode : (s.startFrame frame).cfgMode = s.cfgMode := rfl
@[simp] theorem State.startFrame_lar : (s.startFrame frame).lar = s.lar := rfl
@[simp] theorem State.startFrame_larSlot : (s.startFrame frame).larSlot = s.larSlot := rfl
@[simp] theorem State.startFrame_v : (s.startFrame frame).v = s.v := rfl
@[simp] theorem State.startFrame_exc : (s.startFrame frame).exc = s.exc := rfl
@[simp] theorem State.startFrame_msr : (s.startFrame frame).msr = s.msr := rfl
@[simp] theorem State.startFrame_rrp : (s.startFrame frame).rrp = s.rrp := rfl
@[simp] theorem State.startFrame_bitpos : (s.startFrame frame).bitpos = 0 := rfl
@[simp] theorem State.startFrame_frameIn : (s.startFrame frame).frameIn = frame := rfl
@[simp] theorem State.startFrame_pcm : (s.startFrame frame).pcm = s.pcm := rfl
@[simp] theorem State.startFrame_resp : (s.startFrame frame).resp = s.resp := rfl
@[simp] theorem State.startFrame_inputs : (s.startFrame frame).inputs = s.inputs := rfl
@[simp] theorem State.startFrame_params : (s.startFrame frame).params = s.params := rfl
@[simp] theorem State.startFrame_ret : (s.startFrame frame).ret = s.ret := rfl
@[simp] theorem State.startFrame_freeCount : (s.startFrame frame).freeCount = s.freeCount := rfl

end startFrame

section present

variable (s : State) (r : Request)

@[simp] theorem State.present_fsm : (s.present r).fsm = if s.fsm = .decoding then .ready else s.fsm := rfl
@[simp] theorem State.present_cfgMode : (s.present r).cfgMode = s.cfgMode := rfl
@[simp] theorem State.present_lar : (s.present r).lar = s.lar := rfl
@[simp] theorem State.present_larSlot : (s.present r).larSlot = s.larSlot := rfl
@[simp] theorem State.present_v : (s.present r).v = s.v := rfl
@[simp] theorem State.present_exc : (s.present r).exc = s.exc := rfl
@[simp] theorem State.present_msr : (s.present r).msr = s.msr := rfl
@[simp] theorem State.present_rrp : (s.present r).rrp = s.rrp := rfl
@[simp] theorem State.present_bitpos : (s.present r).bitpos = s.bitpos := rfl
@[simp] theorem State.present_frameIn : (s.present r).frameIn = s.frameIn := rfl
@[simp] theorem State.present_pcm : (s.present r).pcm = s.pcm := rfl
@[simp] theorem State.present_resp : (s.present r).resp = s.resp := rfl
@[simp] theorem State.present_inputs : (s.present r).inputs = .command r :: s.inputs := rfl
@[simp] theorem State.present_params : (s.present r).params = s.params := rfl
@[simp] theorem State.present_ret : (s.present r).ret = s.ret := rfl
@[simp] theorem State.present_freeCount : (s.present r).freeCount = s.freeCount := rfl

end present

end Sys2Proof.Machine
end

