-- ==== Sys2Proof/Laws/Access.lean ====
section
/-! SUPPORT. Reading what was written: a read after a write gives the value narrowed, and a write leaves
every other place alone (R24, R30, R49). -/

namespace Sys2Proof.Machine

/-- A read of `EXC` after a write (R49). -/
theorem excAt_setExc (s : State) (a b : Fin 280) (x : Int) :
    (s.setExc a x).excAt b = if a = b then wrap16 x else s.excAt b := by
  by_cases h : a = b
  · subst h; simp [State.excAt, State.setExc]
  · have : a.val ≠ b.val := fun e => h (Fin.ext e)
    simp [State.excAt, State.setExc, h, this]

@[simp] theorem excAt_setExc_self (s : State) (a : Fin 280) (x : Int) :
    (s.setExc a x).excAt a = wrap16 x := by simp [excAt_setExc]

theorem excAt_setExc_of_ne (s : State) {a b : Fin 280} (x : Int) (h : a ≠ b) :
    (s.setExc a x).excAt b = s.excAt b := by simp [excAt_setExc, h]

/-- A read of `PCM` after a write (R49). -/
theorem pcmAt_setPcm (s : State) (i j : Fin 160) (x : Int) :
    (s.setPcm i x).pcmAt j = if i = j then wrap16 x else s.pcmAt j := by
  by_cases h : i = j
  · subst h; simp [State.pcmAt, State.setPcm]
  · have : i.val ≠ j.val := fun e => h (Fin.ext e)
    simp [State.pcmAt, State.setPcm, h, this]

/-- `EXC` values are determined by what `excAt` reads. -/
theorem exc_ext {s t : State} (h : ∀ a, s.excAt a = t.excAt a) : s.exc = t.exc := by
  apply Vector.ext
  intro i hi
  exact BitVec.eq_of_toInt_eq (h ⟨i, hi⟩)

/-- A value of `EXC` is a 16-bit value (R34). -/
theorem excAt_range (s : State) (a : Fin 280) : -32768 ≤ s.excAt a ∧ s.excAt a ≤ 32767 :=
  sample_range _

/-- A read of `LAR` after a write (R49). -/
theorem larAt_setLar (s : State) (slot slot' : Slot) (i j : Fin 8) (w : Word) :
    (s.setLar slot i w).larAt slot' j = if slot = slot' ∧ i = j then w else s.larAt slot' j := by
  have hs : (slot.toFin : Fin 2).val = (slot'.toFin : Fin 2).val ↔ slot = slot' :=
    ⟨fun e => BitVec.eq_of_toNat_eq e, fun e => by rw [e]⟩
  by_cases h : slot = slot'
  · subst h
    by_cases h' : i = j
    · subst h'; simp [State.larAt, State.setLar]
    · have : i.val ≠ j.val := fun e => h' (Fin.ext e)
      simp [State.larAt, State.setLar, h', this]
  · simp only [State.larAt, State.setLar, Fin.getElem_fin, Vector.getElem_set, hs, h, false_and, if_false]

/-- The two slots are different (R22). -/
@[simp] theorem otherSlot_ne (slot : Slot) : otherSlot slot ≠ slot := by
  revert slot; decide

@[simp] theorem otherSlot_otherSlot (slot : Slot) : otherSlot (otherSlot slot) = slot := by
  revert slot; decide

end Sys2Proof.Machine
end

