-- ==== Sys2Proof/Laws/Reader.lean ====
section
/-! SUPPORT. The bit reader: when it has n bits, the range of what it reads, and what `GetBits` does to
the state (R61, R62). -/

namespace Sys2Proof

/-- The input has frame bit q exactly where q is below its number of bits (R41). -/
theorem frameBit_isSome (bytes : List Byte) (q : Nat) :
    (frameBit bytes q).isSome = decide (q < 8 * bytes.length) := by
  unfold frameBit
  rw [Option.isSome_map, Bool.eq_iff_iff, decide_eq_true_iff, Option.isSome_iff_ne_none, ne_eq,
    List.getElem?_eq_none_iff]
  omega

theorem exists_frameBit {bytes : List Byte} {q : Nat} (h : q < 8 * bytes.length) :
    ∃ b, frameBit bytes q = some b :=
  Option.isSome_iff_exists.mp (by rw [frameBit_isSome]; exact decide_eq_true h)

/-- Enough bits: the reader gives an n-bit unsigned integer (R61, R62). -/
theorem exists_readBits {bytes : List Byte} {p n : Nat} (h : p + n ≤ 8 * bytes.length) :
    ∃ v, readBits bytes p n = some v ∧ v < 2 ^ n := by
  induction n with
  | zero => exact ⟨0, rfl, by decide⟩
  | succ n ih =>
    obtain ⟨v, hv, hlt⟩ := ih (by omega)
    obtain ⟨b, hb⟩ := exists_frameBit (bytes := bytes) (q := p + n) (by omega)
    refine ⟨2 * v + b.toNat, by simp [readBits, hv, hb], ?_⟩
    have := b.toNat_lt
    rw [Nat.pow_succ]; omega

/-- Too few bits: the reader reports it (R61). -/
theorem readBits_eq_none {bytes : List Byte} {p n : Nat} (hn : 0 < n) (h : 8 * bytes.length < p + n) :
    readBits bytes p n = none := by
  obtain ⟨m, rfl⟩ := Nat.exists_eq_succ_of_ne_zero (Nat.pos_iff_ne_zero.mp hn)
  have : frameBit bytes (p + m) = none := by
    rw [← Option.not_isSome_iff_eq_none, frameBit_isSome]; simp; omega
  simp [readBits, this]

/-- What is read is an n-bit unsigned integer (R62). -/
theorem readBits_lt {bytes : List Byte} {p n v : Nat} (h : readBits bytes p n = some v) : v < 2 ^ n := by
  induction n generalizing v with
  | zero => cases h; decide
  | succ n ih =>
    simp only [readBits, Option.bind_eq_some_iff, Option.map_eq_some_iff] at h
    obtain ⟨u, hu, b, _, rfl⟩ := h
    have := ih hu; have := b.toNat_lt
    rw [Nat.pow_succ]; omega

namespace Machine

/-- All `GetBits` can do: it reads n bits at the cursor and advances the cursor by n (R62). -/
theorem getBits_eq_some {s t : State} {n v : Nat} :
    s.getBits n = some (v, t) ↔
      readBits s.frameIn (s.params.padLead.bits + s.bitpos) n = some v ∧
        t = { s with bitpos := s.bitpos + n } := by
  simp only [State.getBits, Option.map_eq_some_iff, Prod.mk.injEq]
  constructor
  · rintro ⟨a, h, rfl, rfl⟩; exact ⟨h, rfl⟩
  · rintro ⟨h, rfl⟩; exact ⟨v, h, rfl, rfl⟩

/-- `GetBits` with enough bits (R61, R62). -/
theorem exists_getBits {s : State} {n : Nat}
    (h : s.params.padLead.bits + s.bitpos + n ≤ 8 * s.frameIn.length) :
    ∃ v, v < 2 ^ n ∧ readBits s.frameIn (s.params.padLead.bits + s.bitpos) n = some v ∧
      s.getBits n = some (v, { s with bitpos := s.bitpos + n }) := by
  obtain ⟨v, hv, hlt⟩ := exists_readBits h
  exact ⟨v, hlt, hv, getBits_eq_some.mpr ⟨hv, rfl⟩⟩

end Machine

end Sys2Proof
end

