-- ==== Sys2Proof/Laws/Excitation.lean ====
section
/-! SUPPORT. What the operations on `EXC` do: `LTSYN`, `HISTSHIFT` and `APCMADD`, each said once for
every sample, with the samples left alone. -/

namespace Sys2Proof.Machine

/-- All `LTSYN` does: only `EXC` changes (R111). -/
theorem ltsyn_frame (s : State) (k : Fin 4) (lag : Nat) (g : BitVec 16) :
    ∃ e, s.ltsyn k lag g = { s with exc := e } := by
  refine forUp_induct (fun _ t => ∃ e, t = { s with exc := e }) 40 _ s ⟨s.exc, rfl⟩ ?_
  rintro _ _ _ ⟨e, rfl⟩
  exact ⟨_, rfl⟩

/-- What `LTSYN` leaves in each sample: the subframe's forty samples are the scaled samples of the window
as it was before, since the window ends below the subframe (R47, R111). -/
theorem ltsyn_excAt (s : State) (k : Fin 4) (lag : Nat) (g : BitVec 16) (a : Fin 280) :
    (s.ltsyn k lag g).excAt a =
      if _h : 120 + 40 * k.val ≤ a.val ∧ a.val < 160 + 40 * k.val then
        wrap16 (roundMul g.toNat (s.excAt ⟨a.val - clampLag lag, by omega⟩))
      else s.excAt a := by
  have hlo := le_clampLag lag
  have hhi := clampLag_le lag
  have key : ∀ a : Fin 280, (s.ltsyn k lag g).excAt a =
      if h : 120 + 40 * k.val ≤ a.val ∧ a.val < 120 + 40 * k.val + 40 then
        wrap16 (roundMul g.toNat (s.excAt ⟨a.val - clampLag lag, by omega⟩))
      else s.excAt a := by
    refine forUp_induct (fun m t => ∀ a : Fin 280, t.excAt a =
      if h : 120 + 40 * k.val ≤ a.val ∧ a.val < 120 + 40 * k.val + m then
        wrap16 (roundMul g.toNat (s.excAt ⟨a.val - clampLag lag, by omega⟩))
      else s.excAt a) 40 _ s ?_ ?_
    · intro a; rw [dif_neg (by omega)]
    · intro m hm t ht a
      have hread : t.excAt (readPos k lag m hm) = s.excAt (readPos k lag m hm) := by
        rw [ht, dif_neg (by simp only [readPos]; omega)]
      rw [excAt_setExc, hread, ht]
      by_cases ha : writePos k m hm = a
      · subst ha
        rw [if_pos rfl, dif_pos (by simp only [writePos]; omega), wrap16_wrap16]
        congr 2
      · have : a.val ≠ 120 + 40 * k.val + m := fun e => ha (Fin.ext (by simp only [writePos]; omega))
        rw [if_neg ha]
        by_cases hin : 120 + 40 * k.val ≤ a.val ∧ a.val < 120 + 40 * k.val + m
        · rw [dif_pos hin, dif_pos (by omega)]
        · rw [dif_neg hin, dif_neg (by omega)]
  rw [key a]
  by_cases hin : 120 + 40 * k.val ≤ a.val ∧ a.val < 160 + 40 * k.val
  · rw [dif_pos hin, dif_pos (by omega)]
  · rw [dif_neg hin, dif_neg (by omega)]

/-- All `HISTSHIFT` does: only `EXC` changes (R130). -/
theorem histshift_frame (s : State) : ∃ e, s.histshift = { s with exc := e } := by
  refine forUp_induct (fun _ t => ∃ e, t = { s with exc := e }) 120 _ s ⟨s.exc, rfl⟩ ?_
  rintro _ _ _ ⟨e, rfl⟩
  exact ⟨_, rfl⟩

/-- What `HISTSHIFT` leaves in each sample (R130). -/
theorem histshift_excAt (s : State) (a : Fin 280) :
    s.histshift.excAt a = if h : a.val < 120 then s.excAt ⟨160 + a.val, by omega⟩ else s.excAt a := by
  refine forUp_induct (fun m t => ∀ a : Fin 280, t.excAt a =
    if h : a.val < 120 ∧ a.val < m then s.excAt ⟨160 + a.val, by omega⟩ else s.excAt a) 120 _ s ?_ ?_ a |>.trans ?_
  · intro a; rw [dif_neg (by omega)]
  · intro m hm t ht a
    have hread : t.excAt ⟨160 + m, by omega⟩ = s.excAt ⟨160 + m, by omega⟩ := by
      rw [ht, dif_neg (by simp only; omega)]
    rw [excAt_setExc, hread, ht]
    by_cases ha : (⟨m, by omega⟩ : Fin 280) = a
    · subst ha
      rw [if_pos rfl, dif_pos (by simp only; omega)]
      exact wrap16_of_fits (excAt_range _ _).1 (excAt_range _ _).2
    · have : a.val ≠ m := fun e => ha (Fin.ext e.symm)
      rw [if_neg ha]
      by_cases hin : a.val < 120 ∧ a.val < m
      · rw [dif_pos hin, dif_pos (by omega)]
      · rw [dif_neg hin, dif_neg (by omega)]
  · by_cases hin : a.val < 120
    · rw [dif_pos hin, dif_pos (by omega)]
    · rw [dif_neg hin, dif_neg (by omega)]

/-- Two pulses of one subframe never land on the same sample (R119). -/
theorem pulsePos_ne (k : Fin 4) (o : BitVec 2) {i j : Nat} (hi : i < 13) (hj : j < 13) (h : i ≠ j) :
    pulsePos k o i hi ≠ pulsePos k o j hj := by
  intro e
  have := congrArg Fin.val e
  simp only [pulsePos] at this
  omega

/-- The number of frame bits the first j pulses of subframe k take (R66). -/
def pulseBits (m : Mode) (k : Fin 4) : Nat → Nat
  | 0 => 0
  | j + 1 => pulseBits m k j + if h : j < 13 then (apcmBits m k ⟨j, h⟩).val else 0

theorem pulseBits_succ (m : Mode) (k : Fin 4) {j : Nat} (h : j < 13) :
    pulseBits m k (j + 1) = pulseBits m k j + (apcmBits m k ⟨j, h⟩).val := by
  simp [pulseBits, h]

/-- The bits of the first j pulses are among those of more pulses. -/
theorem pulseBits_mono (m : Mode) (k : Fin 4) {i j : Nat} (h : i ≤ j) : pulseBits m k i ≤ pulseBits m k j := by
  induction h with
  | refl => exact Nat.le_refl _
  | step _ ih => exact Nat.le_trans ih (Nat.le_add_right _ _)

/-- All one pulse can do (R116): it reads its field at the cursor, writes one sample, advances the
cursor. -/
theorem apcmPulse_eq_some {k : Fin 4} {o : BitVec 2} {m j : Nat} {h : j < 13} {s t : State} :
    apcmPulse k o m j h s = some t ↔
      ∃ x, readBits s.frameIn (s.params.padLead.bits + s.bitpos) (apcmBits s.cfgMode k ⟨j, h⟩) = some x ∧
        t = { s.setExc (pulsePos k o j h)
                (wrap16 (s.excAt (pulsePos k o j h) + s.dequant m (apcmBits s.cfgMode k ⟨j, h⟩) x)) with
              bitpos := s.bitpos + (apcmBits s.cfgMode k ⟨j, h⟩).val } := by
  simp only [apcmPulse, State.getBits, Option.map_map, Option.map_eq_some_iff]
  constructor
  · rintro ⟨x, hx, rfl⟩; exact ⟨x, hx, rfl⟩
  · rintro ⟨x, hx, rfl⟩; exact ⟨x, hx, rfl⟩

/-- What the first j pulses leave: each pulse done is in its sample, every other sample is as before
(R115, R116). -/
structure PulsesDone (s : State) (k : Fin 4) (o : BitVec 2) (m n : Nat) (t : State) : Prop where
  /-- Only `EXC` and `BITPOS` change. -/
  frame : ∃ e, t = { s with exc := e, bitpos := s.bitpos + pulseBits s.cfgMode k n }
  /-- Each pulse done reads its field at its own position and is added into its sample. -/
  pulse : ∀ j (h : j < 13), j < n → ∃ x,
    readBits s.frameIn (s.params.padLead.bits + (s.bitpos + pulseBits s.cfgMode k j))
      (apcmBits s.cfgMode k ⟨j, h⟩) = some x ∧
    t.excAt (pulsePos k o j h) =
      wrap16 (s.excAt (pulsePos k o j h) + s.dequant m (apcmBits s.cfgMode k ⟨j, h⟩) x)
  /-- Every other sample is as before. -/
  rest : ∀ a, (∀ j (h : j < 13), j < n → a ≠ pulsePos k o j h) → t.excAt a = s.excAt a

/-- One more pulse. -/
theorem PulsesDone.next {s : State} {k : Fin 4} {o : BitVec 2} {m n : Nat} {h : n < 13} {t u : State}
    (done : PulsesDone s k o m n t) (hu : apcmPulse k o m n h t = some u) :
    PulsesDone s k o m (n + 1) u := by
  obtain ⟨x, hx, rfl⟩ := apcmPulse_eq_some.mp hu
  have here : t.excAt (pulsePos k o n h) = s.excAt (pulsePos k o n h) :=
    done.rest _ fun j hj hlt => pulsePos_ne k o h hj (by omega)
  obtain ⟨e, rfl⟩ := done.frame
  refine ⟨⟨_, by rw [pulseBits_succ _ _ h, ← Nat.add_assoc]; rfl⟩, ?_, ?_⟩
  · intro j hj hlt
    by_cases hjn : j = n
    · subst hjn
      refine ⟨x, hx, ?_⟩
      exact (excAt_setExc_self _ _ _).trans (by rw [wrap16_wrap16, here]; rfl)
    · obtain ⟨y, hy, hval⟩ := done.pulse j hj (by omega)
      exact ⟨y, hy, (excAt_setExc_of_ne _ _ (pulsePos_ne k o h hj (Ne.symm hjn))).trans hval⟩
  · intro a ha
    exact (excAt_setExc_of_ne _ _ (Ne.symm (ha n h (Nat.lt_succ_self n)))).trans
      (done.rest a fun j hj hlt => ha j hj (by omega))

/-- All the thirteen pulses can do. -/
theorem pulses_done {s u : State} {k : Fin 4} {o : BitVec 2} {m : Nat}
    (h : forUpM 13 (fun j h => apcmPulse k o m j h) s = some u) : PulsesDone s k o m 13 u :=
  forUpM_some (fun n t => PulsesDone s k o m n t) 13 _ s u h
    ⟨⟨s.exc, rfl⟩, fun _ _ h => absurd h (Nat.not_lt_zero _), fun _ _ => rfl⟩
    fun _ _ _ _ done hu => done.next hu

/-- Enough bits: the thirteen pulses are read and added (R61, R116). -/
theorem exists_pulses {s : State} {k : Fin 4} {o : BitVec 2} {m : Nat}
    (h : s.params.padLead.bits + s.bitpos + pulseBits s.cfgMode k 13 ≤ 8 * s.frameIn.length) :
    ∃ u, forUpM 13 (fun j h => apcmPulse k o m j h) s = some u ∧ PulsesDone s k o m 13 u := by
  refine forUpM_induct (fun n t => PulsesDone s k o m n t) 13 _ s
    ⟨⟨s.exc, rfl⟩, fun _ _ h => absurd h (Nat.not_lt_zero _), fun _ _ => rfl⟩ ?_
  intro n hn t done
  have hmono := pulseBits_mono s.cfgMode k (show n + 1 ≤ 13 by omega)
  rw [pulseBits_succ _ _ hn] at hmono
  obtain ⟨e, he⟩ := done.frame
  obtain ⟨x, hx, -⟩ := exists_readBits (bytes := t.frameIn)
    (p := t.params.padLead.bits + t.bitpos) (n := (apcmBits t.cfgMode k ⟨n, hn⟩).val)
    (by subst he; simp only; omega)
  have hu := apcmPulse_eq_some (o := o) (m := m).mpr ⟨x, hx, rfl⟩
  exact ⟨_, hu, done.next hu⟩

/-- All `APCMADD` can do where it completes (R116). -/
theorem apcmadd_eq_some {s u : State} {k : Fin 4} {o : BitVec 2} (h : s.apcmadd k o = some u) :
    ∃ m, readBits s.frameIn (s.params.padLead.bits + s.bitpos) 6 = some m ∧
      PulsesDone { s with bitpos := s.bitpos + 6 } k o m 13 u := by
  obtain ⟨⟨m, t⟩, hm, hu⟩ := Option.bind_eq_some_iff.mp h
  obtain ⟨hr, rfl⟩ := getBits_eq_some.mp hm
  exact ⟨m, hr, pulses_done hu⟩

/-- `APCMADD` completes where the frame holds its bits (R61, R116). -/
theorem exists_apcmadd {s : State} (k : Fin 4) (o : BitVec 2)
    (h : s.params.padLead.bits + s.bitpos + 6 + pulseBits s.cfgMode k 13 ≤ 8 * s.frameIn.length) :
    ∃ u, s.apcmadd k o = some u := by
  obtain ⟨m, -, -, hm⟩ := exists_getBits (s := s) (n := 6) (by omega)
  obtain ⟨u, hu, -⟩ := exists_pulses (s := { s with bitpos := s.bitpos + 6 }) (k := k) (o := o) (m := m)
    (by simp only; omega)
  exact ⟨u, by rw [State.apcmadd, hm]; exact hu⟩

end Sys2Proof.Machine
end

