-- ==== Sys2Proof/Laws/LarDecode.lean ====
section
/-! SUPPORT. What `LARDEC` does: the range of the LAR values, and all the micro-operation can do. -/

namespace Sys2Proof.Machine

/-- The payload bits before `LARC[i]`, counted from the first index (R63). -/
def larBits : Nat → Nat
  | 0 => 0
  | i + 1 => larBits i + if h : i < 8 then larWidth ⟨i, h⟩ else 0

theorem larBits_succ {i : Nat} (h : i < 8) : larBits (i + 1) = larBits i + larWidth ⟨i, h⟩ := by
  simp [larBits, h]

theorem larBits_mono {i j : Nat} (h : i ≤ j) : larBits i ≤ larBits j := by
  induction h with
  | refl => exact Nat.le_refl _
  | step _ ih => exact Nat.le_trans ih (Nat.le_add_right _ _)

/-- The eight indices take 36 bits (R63). -/
theorem larBits_eight : larBits 8 = 36 := by decide

/-- Every LAR value lies in -26214..25394 (R92). -/
theorem larValue_range : ∀ (i : Fin 8) (c : Nat), c < 2 ^ larWidth i →
    -26214 ≤ larValue i c ∧ larValue i c ≤ 25394 := by
  decide +kernel

/-- A LAR value is stored whole (R21, R92). -/
theorem toWord_larValue {i : Fin 8} {c : Nat} (h : c < 2 ^ larWidth i) :
    (toWord (larValue i c)).toInt = larValue i c := by
  have := larValue_range i c h
  rw [toWord_toInt, wrap32_of_fits] <;> omega

/-- All one iteration can do (R90). -/
theorem larStage_eq_some {i : Fin 8} {s t : State} :
    larStage i s = some t ↔
      ∃ c, readBits s.frameIn (s.params.padLead.bits + s.bitpos) (larWidth i) = some c ∧
        t = { s.setLar s.larSlot i (toWord (larValue i c)) with bitpos := s.bitpos + larWidth i } := by
  simp only [larStage, State.getBits, Option.map_map, Option.map_eq_some_iff]
  constructor
  · rintro ⟨x, hx, rfl⟩; exact ⟨x, hx, rfl⟩
  · rintro ⟨x, hx, rfl⟩; exact ⟨x, hx, rfl⟩

/-- What the first n iterations of `LARDEC` leave. -/
structure LarsDone (s : State) (n : Nat) (t : State) : Prop where
  /-- Only `LAR` and `BITPOS` change. -/
  frame : ∃ l, t = { s with lar := l, bitpos := s.bitpos + larBits n }
  /-- Each index read gives its value in the current slot. -/
  value : ∀ i (h : i < 8), i < n → ∃ c, c < 2 ^ larWidth ⟨i, h⟩ ∧
    readBits s.frameIn (s.params.padLead.bits + (s.bitpos + larBits i)) (larWidth ⟨i, h⟩) = some c ∧
    (t.larAt s.larSlot ⟨i, h⟩).toInt = larValue ⟨i, h⟩ c
  /-- Everything else in `LAR` is as before. -/
  rest : ∀ slot (j : Fin 8), slot ≠ s.larSlot ∨ n ≤ j.val → t.larAt slot j = s.larAt slot j

/-- One more index. -/
theorem LarsDone.next {s : State} {n : Nat} {h : n < 8} {t u : State} (done : LarsDone s n t)
    (hu : larStage ⟨n, h⟩ t = some u) : LarsDone s (n + 1) u := by
  obtain ⟨c, hc, rfl⟩ := larStage_eq_some.mp hu
  obtain ⟨l, rfl⟩ := done.frame
  have hat : ∀ slot (j : Fin 8), (State.larAt _ slot j) = _ :=
    fun slot j => larAt_setLar { s with lar := l, bitpos := s.bitpos + larBits n } s.larSlot slot ⟨n, h⟩ j
      (toWord (larValue ⟨n, h⟩ c))
  refine ⟨⟨_, by rw [larBits_succ h, ← Nat.add_assoc]; rfl⟩, ?_, ?_⟩
  · intro i hi hlt
    by_cases hin : i = n
    · subst hin
      have hc' := readBits_lt hc
      refine ⟨c, hc', hc, ?_⟩
      refine (congrArg BitVec.toInt (hat s.larSlot ⟨i, hi⟩)).trans ?_
      rw [if_pos ⟨rfl, rfl⟩]
      exact toWord_larValue hc'
    · obtain ⟨d, hd, hread, hval⟩ := done.value i hi (by omega)
      refine ⟨d, hd, hread, (congrArg BitVec.toInt (hat s.larSlot ⟨i, hi⟩)).trans ?_⟩
      rw [if_neg (fun e => hin (congrArg Fin.val e.2).symm)]
      exact hval
  · intro slot j hj
    refine (hat slot j).trans ?_
    rw [if_neg]
    · exact done.rest slot j (hj.imp id (by omega))
    · rintro ⟨rfl, rfl⟩
      rcases hj with hj | hj
      · exact hj rfl
      · simp only at hj; omega

/-- All `LARDEC` can do where it completes (R90). -/
theorem lardec_eq_some {s u : State} (h : s.lardec = some u) : LarsDone s 8 u :=
  forUpM_some (fun n t => LarsDone s n t) 8 _ s u h
    ⟨⟨s.lar, rfl⟩, fun _ _ h => absurd h (Nat.not_lt_zero _), fun _ _ _ => rfl⟩
    fun _ _ _ _ done hu => done.next hu

/-- `LARDEC` completes where the frame holds its 36 bits (R61, R90). -/
theorem exists_lardec {s : State}
    (h : s.params.padLead.bits + s.bitpos + 36 ≤ 8 * s.frameIn.length) :
    ∃ u, s.lardec = some u ∧ LarsDone s 8 u := by
  refine forUpM_induct (fun n t => LarsDone s n t) 8 _ s
    ⟨⟨s.lar, rfl⟩, fun _ _ h => absurd h (Nat.not_lt_zero _), fun _ _ _ => rfl⟩ ?_
  intro n hn t done
  have hmono := larBits_mono (show n + 1 ≤ 8 by omega)
  rw [larBits_succ hn, larBits_eight] at hmono
  obtain ⟨l, hl⟩ := done.frame
  obtain ⟨c, hc, -⟩ := exists_readBits (bytes := t.frameIn)
    (p := t.params.padLead.bits + t.bitpos) (n := larWidth ⟨n, hn⟩) (by subst hl; simp only; omega)
  have hu := larStage_eq_some.mpr ⟨c, hc, rfl⟩
  exact ⟨_, hu, done.next hu⟩

end Sys2Proof.Machine
end

