-- ==== Sys2Proof/Laws/PostFilter.lean ====
section
/-! SUPPORT. What `DEEMPH` does: the accumulator as a sequence, each output from the accumulator after
its sample. -/

namespace Sys2Proof.Machine

/-- The accumulator before sample n of a block (R120). -/
def msrBefore (s : State) : Nat → Int
  | 0 => s.msr.toInt
  | n + 1 => if h : n < 160 then msrNext (msrBefore s n) (s.pcmAt ⟨n, h⟩) else msrBefore s n

theorem msrBefore_succ (s : State) (i : Fin 160) :
    msrBefore s (i + 1) = msrNext (msrBefore s i) (s.pcmAt i) := by
  simp [msrBefore]

/-- The accumulator always fits its register (R25). -/
theorem msrBefore_range (s : State) (n : Nat) : -32768 ≤ msrBefore s n ∧ msrBefore s n ≤ 32767 := by
  induction n with
  | zero => exact sample_range _
  | succ n ih =>
    rw [msrBefore]
    split
    · exact clip16_range _
    · exact ih

/-- Every output is a multiple of 8 in -32768..32760 (R121). -/
theorem pcmOut_spec (m : Int) : pcmOut m % 8 = 0 ∧ -32768 ≤ pcmOut m ∧ pcmOut m ≤ 32760 := by
  have h := mask7_spec (clip16 (shl m 1))
  have := clip16_range (shl m 1)
  unfold pcmOut; omega

/-- On a sample of 0 the accumulator stays between 0 and itself, and stays put at -3..3 alone (R123). -/
theorem msrNext_zero {m : Int} (lo : -32768 ≤ m) (hi : m ≤ 32767) :
    (0 ≤ m → 0 ≤ msrNext m 0 ∧ msrNext m 0 ≤ m) ∧ (m ≤ 0 → m ≤ msrNext m 0 ∧ msrNext m 0 ≤ 0) ∧
      (msrNext m 0 = m ↔ -3 ≤ m ∧ m ≤ 3) := by
  unfold msrNext roundMul asr clip16
  split
  · omega
  · split <;> omega

/-- All `DEEMPH` does (R120). -/
theorem deemph_spec (s : State) :
    (∃ o, s.deemph = { s with msr := toSample (msrBefore s 160), pcm := o }) ∧
      ∀ i : Fin 160, s.deemph.pcmAt i = pcmOut (msrBefore s (i + 1)) := by
  have key := forUp_induct (fun n t => (∃ o, t = { s with msr := toSample (msrBefore s n), pcm := o }) ∧
    ∀ i : Fin 160, t.pcmAt i = if i.val < n then pcmOut (msrBefore s (i + 1)) else s.pcmAt i)
    160 (fun i h => deemphSample ⟨i, h⟩) s ⟨⟨s.pcm, by simp [msrBefore]⟩, fun i => by simp⟩ ?_
  · exact ⟨key.1, fun i => (key.2 i).trans (if_pos i.isLt)⟩
  · rintro n hn t ⟨⟨o, rfl⟩, hval⟩
    have hm : msrNext (msrBefore s n) (s.pcmAt ⟨n, hn⟩) = msrBefore s (n + 1) :=
      (msrBefore_succ s ⟨n, hn⟩).symm
    have hin : (State.pcmAt { s with msr := toSample (msrBefore s n), pcm := o } ⟨n, hn⟩) = s.pcmAt ⟨n, hn⟩ := by
      rw [hval, if_neg (Nat.lt_irrefl n)]
    have hmsr : (toSample (msrBefore s n)).toInt = msrBefore s n := by
      rw [toSample_toInt, wrap16_of_fits (msrBefore_range s n).1 (msrBefore_range s n).2]
    constructor
    · simp only [deemphSample, hin, hmsr, hm]
      exact ⟨_, rfl⟩
    · intro i
      simp only [deemphSample, hin, hmsr, hm]
      rw [pcmAt_setPcm]
      by_cases hi : (⟨n, hn⟩ : Fin 160) = i
      · subst hi
        have := pcmOut_spec (msrBefore s (n + 1))
        rw [if_pos rfl, if_pos (Nat.lt_succ_self n), wrap16_of_fits (by omega) (by omega)]
      · have hne : i.val ≠ n := fun e => hi (Fin.ext e.symm)
        rw [if_neg hi]
        refine (hval i).trans ?_
        by_cases hlt : i.val < n
        · rw [if_pos hlt, if_pos (by omega)]
        · rw [if_neg hlt, if_neg (by omega)]

end Sys2Proof.Machine
end

