-- ==== Sys2Proof/Laws/ShortTerm.lean ====
section
/-! SUPPORT. What the short-term filter does: the blend and the reflection transform, `LARBLEND`, one
lattice step as a sequence of running values, and the frame of `STSYN`. -/

namespace Sys2Proof.Machine

/-- A blend of two words always fits a word (R101). -/
theorem blend_fits (r : Fin 4) (p c : Word) :
    -(2 ^ 31) ≤ blend r p.toInt c.toInt ∧ blend r p.toInt c.toInt < 2 ^ 31 := by
  have hp := word_range p
  have hc := word_range c
  fin_cases r <;> simp only [blend, asr] <;> omega

@[simp] theorem toWord_blend_toInt (r : Fin 4) (p c : Word) :
    (toWord (blend r p.toInt c.toInt)).toInt = blend r p.toInt c.toInt := by
  rw [toWord_toInt, wrap32_of_fits (blend_fits r p c).1 (blend_fits r p c).2]

/-- The result of `reflect` fits a word wherever its magnitude does (R97). -/
theorem reflectInt_fits {x : Int} (h : -(2 ^ 31) < x) (h' : x < 2 ^ 31) :
    -(2 ^ 31) ≤ reflectInt x ∧ reflectInt x < 2 ^ 31 := by
  have ha : |x| < 2 ^ 31 := abs_lt.mpr ⟨h, h'⟩
  have hn := abs_nonneg x
  have hm : 0 ≤ reflectMagnitude |x| ∧ reflectMagnitude |x| < 2 ^ 31 := by
    unfold reflectMagnitude shl asr
    split
    · omega
    · split <;> omega
  unfold reflectInt
  split <;> omega

/-- `reflect` on a word whose magnitude is representable (R95). -/
theorem reflect_toInt {x : Word} (h : x.toInt ≠ -(2 ^ 31)) : (reflect x).toInt = reflectInt x.toInt := by
  have hx := word_range x
  have := reflectInt_fits (x := x.toInt) (by omega) hx.2
  rw [reflect, if_neg h, toWord_toInt, wrap32_of_fits this.1 this.2]

/-- All `LARBLEND` does: each coefficient is computed from the two LAR slots (R100). -/
theorem larblend_eq (s : State) (r : Fin 4) :
    s.larblend r = { s with rrp := Vector.ofFn (s.coefficient r) } := by
  have key := forUp_induct (fun n t => (∃ q, t = { s with rrp := q }) ∧
    ∀ i (h : i < 8), i < n → t.rrp[i] = s.coefficient r ⟨i, h⟩) 8
    (fun i h t => { t with rrp := t.rrp.set i (t.coefficient r ⟨i, h⟩) }) s
    ⟨⟨s.rrp, rfl⟩, fun _ _ h => absurd h (Nat.not_lt_zero _)⟩ ?_
  · obtain ⟨⟨q, hq⟩, hval⟩ := key
    rw [State.larblend, hq]
    congr 1
    apply Vector.ext
    intro i hi
    rw [hq] at hval
    simp [← hval i hi hi]
  · rintro n hn t ⟨⟨q, rfl⟩, hval⟩
    refine ⟨⟨_, rfl⟩, fun i hi hlt => ?_⟩
    by_cases hin : n = i
    · subst hin; simp; rfl
    · simp only [Vector.getElem_set, hin, if_false]
      exact hval i hi (by omega)

/-- One lattice step as a sequence of running values, from the sample down to the output (R102): each
stage subtracts first, and the memory word above it is computed from the new running value and the old
word. -/
theorem lattice_spec (rrp : Vector Word 8) (v : Vector Word 9) (x : Int) :
    ∃ inner : Nat → Int, inner 8 = x ∧ inner 0 = (lattice rrp v x).1 ∧
      (∀ i : Fin 8, inner i = wrap32 (inner (i + 1) - roundMul (rrp[i]).toInt (v[i.castSucc]).toInt) ∧
        (lattice rrp v x).2[i.succ] =
          toWord (wrap32 ((v[i.castSucc]).toInt + roundMul (rrp[i]).toInt (inner i)))) ∧
      (lattice rrp v x).2[0] = toWord (inner 0) := by
  have key := forDown_induct (fun m (a : Int × Vector Word 9) => ∃ inner : Nat → Int,
      inner 8 = x ∧ inner m = a.1 ∧
      (∀ i : Fin 8, m ≤ i.val →
        inner i = wrap32 (inner (i + 1) - roundMul (rrp[i]).toInt (v[i.castSucc]).toInt) ∧
        a.2[i.succ] = toWord (wrap32 ((v[i.castSucc]).toInt + roundMul (rrp[i]).toInt (inner i)))) ∧
      ∀ j : Fin 9, j.val ≤ m → a.2[j] = v[j]) 8 (fun i h => latticeStage rrp ⟨i, h⟩) (x, v)
    ⟨fun _ => x, rfl, rfl, fun i h => absurd i.isLt (by omega), fun _ _ => rfl⟩ ?_
  · obtain ⟨inner, h8, h0, hstage, -⟩ := key
    unfold lattice
    generalize forDown 8 (fun i h => latticeStage rrp ⟨i, h⟩) (x, v) = a at h0 hstage
    refine ⟨inner, h8, h0, fun i => ⟨(hstage i (Nat.zero_le _)).1, ?_⟩, ?_⟩
    · rw [← (hstage i (Nat.zero_le _)).2]
      simp
    · rw [h0]; simp
  · rintro n hn ⟨a, w⟩ ⟨inner, h8, hm, hstage, hrest⟩
    have hold : w[n] = v[n] := hrest ⟨n, by omega⟩ (Nat.le_succ n)
    refine ⟨Function.update inner n (latticeStage rrp ⟨n, hn⟩ (a, w)).1, ?_, by simp, ?_, ?_⟩
    · rw [Function.update_of_ne (by omega)]; exact h8
    · intro i hi
      by_cases hin : i.val = n
      · obtain rfl : i = ⟨n, hn⟩ := Fin.ext hin
        simp only [Function.update_self, Function.update_of_ne (Nat.succ_ne_self n)]
        rw [hm]
        simp [latticeStage, hold]
      · have hi' : n + 1 ≤ i.val := by omega
        have hne : n ≠ i.val := fun e => hin e.symm
        rw [Function.update_of_ne hin, Function.update_of_ne (by omega)]
        refine ⟨(hstage i hi').1, ?_⟩
        rw [← (hstage i hi').2]
        simp [latticeStage, hne]
    · intro j hj
      rw [← hrest j (by omega)]
      have : n + 1 ≠ j.val := by omega
      simp [latticeStage, this]

/-- Only `RRP` changes where coefficients are due (R103). -/
theorem blendIfDue_frame (s : State) (i : Nat) : ∃ q, s.blendIfDue i = { s with rrp := q } := by
  unfold State.blendIfDue
  split
  · exact ⟨_, larblend_eq s _⟩
  · exact ⟨s.rrp, rfl⟩

/-- All `STSYN` changes: the lattice memory, the coefficients and the output block (R103). -/
theorem stsyn_frame (s : State) : ∃ w q o, s.stsyn = { s with v := w, rrp := q, pcm := o } := by
  refine forUp_induct (fun _ t => ∃ w q o, t = { s with v := w, rrp := q, pcm := o }) 160 _ s
    ⟨_, _, _, rfl⟩ ?_
  rintro i h _ ⟨w, q, o, rfl⟩
  obtain ⟨q', hq⟩ := blendIfDue_frame { s with v := w, rrp := q, pcm := o } i
  exact ⟨_, q', _, by simp only [synthSample, hq]; rfl⟩

end Sys2Proof.Machine
end

