-- ==== Sys2Proof/Laws/Orchestrator.lean ====
section
/-! SUPPORT. What a decode changes, when it completes, and what one step can do. -/

namespace Sys2Proof.Machine

/-- The payload bits of one subframe record (R64, R66). -/
def subframeBits (m : Mode) (k : Fin 4) : Nat :=
  17 + pulseBits m k 13

/-- The thirteen residual widths, added up two ways. -/
theorem pulseBits_eq_sum (m : Mode) (k : Fin 4) :
    pulseBits m k 13 = ((List.finRange 13).map fun j => (apcmBits m k j).val).sum := by
  simp only [pulseBits, List.finRange, List.ofFn]
  simp [Fin.foldr, Fin.foldr.loop]
  omega

/-- `PAYLOAD_BITS` from the four records (R66). -/
theorem payloadBits_eq (m : Mode) :
    payloadBits m = 36 + (subframeBits m 0 + subframeBits m 1 + subframeBits m 2 + subframeBits m 3) := by
  simp only [payloadBits, subframeBits, pulseBits_eq_sum]
  simp [List.finRange, List.ofFn, Fin.foldr, Fin.foldr.loop]
  omega

/-- All one subframe can change: `EXC`, and the cursor by the record's bits (R129). -/
theorem subframe_frame {s u : State} {k : Fin 4} (h : s.subframe k = some u) :
    ∃ e, u = { s with exc := e, bitpos := s.bitpos + subframeBits s.cfgMode k } := by
  simp only [State.subframe, Option.bind_eq_some_iff] at h
  obtain ⟨⟨l, s1⟩, h1, ⟨g, s2⟩, h2, ⟨o, s3⟩, h3, hu⟩ := h
  obtain ⟨-, rfl⟩ := getBits_eq_some.mp h1
  obtain ⟨-, rfl⟩ := getBits_eq_some.mp h2
  obtain ⟨-, rfl⟩ := getBits_eq_some.mp h3
  obtain ⟨e, he⟩ := ltsyn_frame { s with bitpos := s.bitpos + 7 + 2 + 2 } k l
    (State.gain { s with bitpos := s.bitpos + 7 + 2 + 2 } g)
  simp only [he] at hu
  obtain ⟨m, -, done⟩ := apcmadd_eq_some hu
  obtain ⟨e', he'⟩ := done.frame
  refine ⟨e', he'.trans ?_⟩
  simp only [State.mk.injEq, true_and, and_true, subframeBits]
  omega

/-- A subframe completes where the frame holds its record (R61, R129). -/
theorem exists_subframe {s : State} (k : Fin 4)
    (h : s.params.padLead.bits + s.bitpos + subframeBits s.cfgMode k ≤ 8 * s.frameIn.length) :
    ∃ u, s.subframe k = some u := by
  unfold subframeBits at h
  obtain ⟨l, -, -, h1⟩ := exists_getBits (s := s) (n := 7) (by omega)
  obtain ⟨g, -, -, h2⟩ := exists_getBits (s := { s with bitpos := s.bitpos + 7 }) (n := 2)
    (by simp only; omega)
  obtain ⟨o, -, -, h3⟩ := exists_getBits (s := { s with bitpos := s.bitpos + 7 + 2 }) (n := 2)
    (by simp only; omega)
  obtain ⟨e, he⟩ := ltsyn_frame { s with bitpos := s.bitpos + 7 + 2 + 2 } k l
    (State.gain { s with bitpos := s.bitpos + 7 + 2 + 2 } g)
  obtain ⟨u, hu⟩ := exists_apcmadd
    (s := { s with exc := e, bitpos := s.bitpos + 7 + 2 + 2 }) k (BitVec.ofNat 2 o) (by simp only; omega)
  refine ⟨u, ?_⟩
  simp only [State.subframe, h1, h2, h3, Option.bind_some, he]
  exact hu

/-- The payload bits of the first k subframe records. -/
def subframesBits (m : Mode) : Nat → Nat
  | 0 => 0
  | k + 1 => subframesBits m k + if h : k < 4 then subframeBits m ⟨k, h⟩ else 0

theorem subframesBits_succ (m : Mode) {k : Nat} (h : k < 4) :
    subframesBits m (k + 1) = subframesBits m k + subframeBits m ⟨k, h⟩ := by
  simp [subframesBits, h]

theorem subframesBits_mono (m : Mode) {i j : Nat} (h : i ≤ j) : subframesBits m i ≤ subframesBits m j := by
  induction h with
  | refl => exact Nat.le_refl _
  | step _ ih => exact Nat.le_trans ih (Nat.le_add_right _ _)

/-- The payload is the LAR indices and the four records (R66). -/
theorem payloadBits_eq_subframes (m : Mode) : payloadBits m = 36 + subframesBits m 4 := by
  rw [payloadBits_eq]
  simp [subframesBits]

/-- All step 2 can change: `EXC`, and the cursor (R129). -/
theorem subframes_frame {s u : State}
    (h : forUpM 4 (fun k h (t : State) => t.subframe ⟨k, h⟩) s = some u) :
    ∃ e, u = { s with exc := e, bitpos := s.bitpos + subframesBits s.cfgMode 4 } := by
  refine forUpM_some (fun k t => ∃ e, t = { s with exc := e, bitpos := s.bitpos + subframesBits s.cfgMode k })
    4 _ s u h ⟨s.exc, rfl⟩ ?_
  rintro k hk t t' ⟨e, rfl⟩ ht
  obtain ⟨e', rfl⟩ := subframe_frame ht
  exact ⟨e', by rw [subframesBits_succ _ hk, ← Nat.add_assoc]⟩

/-- Step 2 completes where the frame holds its records (R61, R129). -/
theorem exists_subframes {s : State}
    (h : s.params.padLead.bits + s.bitpos + subframesBits s.cfgMode 4 ≤ 8 * s.frameIn.length) :
    ∃ u, forUpM 4 (fun k h (t : State) => t.subframe ⟨k, h⟩) s = some u := by
  have carry : ∀ k (hk : k < 4) (t : State),
      (∃ e, t = { s with exc := e, bitpos := s.bitpos + subframesBits s.cfgMode k }) →
      ∃ u, t.subframe ⟨k, hk⟩ = some u ∧
        ∃ e, u = { s with exc := e, bitpos := s.bitpos + subframesBits s.cfgMode (k + 1) } := by
    rintro k hk t ⟨e, rfl⟩
    have hmono := subframesBits_mono s.cfgMode (show k + 1 ≤ 4 by omega)
    rw [subframesBits_succ _ hk] at hmono
    obtain ⟨u, hu⟩ := exists_subframe
      (s := { s with exc := e, bitpos := s.bitpos + subframesBits s.cfgMode k }) ⟨k, hk⟩
      (by simp only; omega)
    obtain ⟨e', he'⟩ := subframe_frame hu
    exact ⟨u, hu, e', by rw [he', subframesBits_succ _ hk, ← Nat.add_assoc]⟩
  obtain ⟨u, hu, -⟩ := forUpM_induct
    (fun k t => ∃ e, t = { s with exc := e, bitpos := s.bitpos + subframesBits s.cfgMode k }) 4
    (fun k h (t : State) => t.subframe ⟨k, h⟩) s ⟨s.exc, rfl⟩ carry
  exact ⟨u, hu⟩

/-- All steps 3 to 6 change (R126). -/
theorem finishFrame_frame (s : State) :
    ∃ e w q o m, s.finishFrame =
      { s with exc := e, v := w, rrp := q, pcm := o, msr := m, larSlot := otherSlot s.larSlot } := by
  obtain ⟨e, he⟩ := histshift_frame s
  obtain ⟨w, q, o, hs⟩ := stsyn_frame { s with exc := e }
  obtain ⟨⟨o', hd⟩, -⟩ := deemph_spec { s with exc := e, v := w, rrp := q, pcm := o }
  simp only [State.finishFrame, he, hs, hd]
  exact ⟨_, _, _, _, _, rfl⟩

/-- All the six steps can change (R126). -/
theorem decodeSteps_frame {s u : State} (h : s.decodeSteps = some u) :
    ∃ l e w q o m, u = { s with
      lar := l, exc := e, v := w, rrp := q, pcm := o, msr := m, larSlot := otherSlot s.larSlot,
      bitpos := s.bitpos + payloadBits s.cfgMode } := by
  obtain ⟨s1, h1, hu⟩ := Option.bind_eq_some_iff.mp h
  obtain ⟨s2, h2, rfl⟩ := Option.map_eq_some_iff.mp hu
  obtain ⟨l, rfl⟩ := (lardec_eq_some h1).frame
  obtain ⟨e, rfl⟩ := subframes_frame h2
  obtain ⟨e', w, q, o, m, hf⟩ := finishFrame_frame
    { s with lar := l, exc := e, bitpos := s.bitpos + larBits 8 + subframesBits s.cfgMode 4 }
  refine ⟨l, e', w, q, o, m, hf.trans ?_⟩
  simp only [payloadBits_eq_subframes, larBits_eight, State.mk.injEq, true_and, and_true]
  omega

/-- The six steps complete where the input holds the payload: a frame that passes the length test can
never run out of bits later (R142). -/
theorem exists_decodeSteps {s : State}
    (h : s.params.padLead.bits + s.bitpos + payloadBits s.cfgMode ≤ 8 * s.frameIn.length) :
    ∃ u, s.decodeSteps = some u := by
  rw [payloadBits_eq_subframes] at h
  obtain ⟨s1, h1, done⟩ := exists_lardec (s := s) (by omega)
  obtain ⟨l, rfl⟩ := done.frame
  obtain ⟨s2, h2⟩ := exists_subframes (s := { s with lar := l, bitpos := s.bitpos + larBits 8 })
    (by simp only [larBits_eight]; omega)
  exact ⟨s2.finishFrame, by rw [State.decodeSteps, h1, Option.bind_some, h2]; rfl⟩

/-- All a `DECODE_FRAME` can do, by what it finds (R125, R127). -/
theorem execDecodeFrame_cases (frame : List Byte) (s : State) :
    (s.fsm = .decoding ∧ execDecodeFrame frame s = .next s) ∨
    (s.fsm = .idle ∧ execDecodeFrame frame s = .next (s.raise .noSession)) ∨
    (s.fsm = .ready ∧ 8 * frame.length < neededBits s.params.padLead s.cfgMode ∧
      execDecodeFrame frame s = .next (s.raise .truncatedInput)) ∨
    (s.fsm = .ready ∧ neededBits s.params.padLead s.cfgMode ≤ 8 * frame.length ∧
      ∃ u, (s.startFrame frame).decodeSteps = some u ∧ execDecodeFrame frame s = .next u.endFrame) := by
  unfold execDecodeFrame
  cases hf : s.fsm
  · exact .inr (.inl ⟨rfl, rfl⟩)
  · by_cases hlen : 8 * frame.length < neededBits s.params.padLead s.cfgMode
    · exact .inr (.inr (.inl ⟨rfl, hlen, by simp [hlen]⟩))
    · obtain ⟨u, hu⟩ := exists_decodeSteps (s := s.startFrame frame)
        (by simp only [State.startFrame_params, State.startFrame_bitpos, State.startFrame_cfgMode,
          State.startFrame_frameIn, neededBits] at hlen ⊢; omega)
      exact .inr (.inr (.inr ⟨rfl, by omega, u, hu, by simp [hlen, hu]⟩))
  · exact .inl ⟨rfl, rfl⟩

/-- All one step can do: wait, take the hard reset, or run the oldest command (R50, R151). -/
theorem step_cases (s : State) :
    (step s = .next s ∧ (s.inputs = [] ∨ s.fsm = .decoding ∧ ∃ r rest, s.inputs = .command r :: rest)) ∨
    (∃ rest, s.inputs = .hardReset :: rest ∧ step s = .next (State.hardReset { s with inputs := rest })) ∨
    (∃ r rest, s.inputs = .command r :: rest ∧ s.fsm ≠ .decoding ∧
      step s = exec (decode r) { s with inputs := rest }) := by
  unfold step State.fetch
  split <;> rename_i h
  · split at h
    · exact .inl ⟨rfl, .inl ‹_›⟩
    · cases h
    · split at h
      · exact .inl ⟨rfl, .inr ⟨‹_›, _, _, ‹_›⟩⟩
      · cases h
  · split at h
    · cases h
    · cases h; exact .inr (.inl ⟨_, ‹_›, rfl⟩)
    · split at h <;> cases h
  · split at h
    · cases h
    · cases h
    · split at h
      · cases h
      · cases h; exact .inr (.inr ⟨_, _, ‹_›, ‹_›, rfl⟩)

end Sys2Proof.Machine
end

