-- ==== Sys2Proof/Laws/PerInstr.lean ====
section
/-! SUPPORT. Statements for all instructions, one lemma for each constructor: what the host presents to
issue an instruction is decoded to that instruction, and no micro-operation or primitive can be issued
(R72). -/

namespace Sys2Proof.Laws.PortRoundTrip

/-- Every command port content that encodes the instruction decodes to it. -/
def Statement (i : Instr) : Prop :=
  ∀ r, encode i = some r → decode r = i

theorem decodeFrame (frame : List Byte) : Statement (.decodeFrame frame) := by
  rintro _ ⟨⟩; rfl
theorem sessionOpen (mode : Mode) : Statement (.sessionOpen mode) := by
  rintro _ ⟨⟩; rfl
theorem sessionClose : Statement .sessionClose := by
  rintro _ ⟨⟩; rfl
theorem lardec : Statement .lardec := nofun
theorem reflect (x : Word) : Statement (.reflect x) := nofun
theorem larblend (r : Fin 4) : Statement (.larblend r) := nofun
theorem latstep (x : Sample) : Statement (.latstep x) := nofun
theorem stsyn : Statement .stsyn := nofun
theorem ltsyn (k : Fin 4) (lag : Nat) (g : BitVec 16) : Statement (.ltsyn k lag g) := nofun
theorem apcmadd (k : Fin 4) (o : BitVec 2) : Statement (.apcmadd k o) := nofun
theorem histshift : Statement .histshift := nofun
theorem deemph : Statement .deemph := nofun
theorem lartoggle : Statement .lartoggle := nofun
theorem roundMul (a b : Int) : Statement (.roundMul a b) := nofun
theorem clip16 (x : Int) : Statement (.clip16 x) := nofun
theorem wrap16 (x : Int) : Statement (.wrap16 x) := nofun
theorem wrap32 (x : Int) : Statement (.wrap32 x) := nofun
theorem getBits (n : Nat) : Statement (.getBits n) := nofun

end Sys2Proof.Laws.PortRoundTrip
end

