-- ==== Sys2Proof/Laws/Safety.lean ====
section
/-! SUPPORT. What the exchange of the two LAR slots does to each field, and the relation of two states alike
but for it (R31). -/

namespace Sys2Proof.Machine

section exchangeSlots

variable (s : State)

@[simp] theorem State.exchangeSlots_fsm : s.exchangeSlots.fsm = s.fsm := rfl
@[simp] theorem State.exchangeSlots_cfgMode : s.exchangeSlots.cfgMode = s.cfgMode := rfl
@[simp] theorem State.exchangeSlots_lar : s.exchangeSlots.lar = #v[s.lar[1], s.lar[0]] := rfl
@[simp] theorem State.exchangeSlots_larSlot : s.exchangeSlots.larSlot = otherSlot s.larSlot := rfl
@[simp] theorem State.exchangeSlots_v : s.exchangeSlots.v = s.v := rfl
@[simp] theorem State.exchangeSlots_exc : s.exchangeSlots.exc = s.exc := rfl
@[simp] theorem State.exchangeSlots_msr : s.exchangeSlots.msr = s.msr := rfl
@[simp] theorem State.exchangeSlots_rrp : s.exchangeSlots.rrp = s.rrp := rfl
@[simp] theorem State.exchangeSlots_bitpos : s.exchangeSlots.bitpos = s.bitpos := rfl
@[simp] theorem State.exchangeSlots_frameIn : s.exchangeSlots.frameIn = s.frameIn := rfl
@[simp] theorem State.exchangeSlots_pcm : s.exchangeSlots.pcm = s.pcm := rfl
@[simp] theorem State.exchangeSlots_resp : s.exchangeSlots.resp = s.resp := rfl
@[simp] theorem State.exchangeSlots_inputs : s.exchangeSlots.inputs = s.inputs := rfl
@[simp] theorem State.exchangeSlots_params : s.exchangeSlots.params = s.params := rfl
@[simp] theorem State.exchangeSlots_ret : s.exchangeSlots.ret = s.ret := rfl
@[simp] theorem State.exchangeSlots_freeCount : s.exchangeSlots.freeCount = s.freeCount := rfl

end exchangeSlots

/-- A slot read after the exchange is the other slot before it (R31). -/
theorem larAt_exchangeSlots (s : State) (slot : Slot) (i : Fin 8) :
    s.exchangeSlots.larAt (otherSlot slot) i = s.larAt slot i := by
  have h : slot = 0 ∨ slot = 1 := by revert slot; decide
  rcases h with rfl | rfl <;> rfl

/-- The exchange undone (R31). -/
@[simp] theorem State.exchangeSlots_exchangeSlots (s : State) : s.exchangeSlots.exchangeSlots = s := by
  have h : (#v[s.lar[0], s.lar[1]] : Vector (Vector Word 8) 2) = s.lar := by
    apply Vector.ext; intro i hi; interval_cases i <;> rfl
  unfold State.exchangeSlots; simp [h]

/-- The relation is symmetric. -/
theorem SlotsExchanged.flip {s s' : State} (h : SlotsExchanged s s') : SlotsExchanged s' s := by
  rcases h with rfl | rfl
  · exact .inl rfl
  · exact .inr (State.exchangeSlots_exchangeSlots s).symm

end Sys2Proof.Machine
end

