-- ==== Sys2Proof/Tests/Slice0.lean ====
section
/-! SUPPORT. Tests: expected results from the spec's tables and vectors (spec/95_test_vectors.md, cited at
each), the ill-formed terms each check refuses, and for every statement with hypotheses a state and
operands that meet them. -/

namespace Sys2Proof.Tests

open Sys2Proof.Machine Sys2Proof.Rules

/-- Does an outcome give a next state with the property? -/
def next (o : Host.Outcome State Fault Refusal) (p : State → Bool) : Bool :=
  match o with
  | .next t => p t
  | .fault _ => false
  | .refused _ => false

/-- Do the bytes decode to the frame? -/
def decodesTo (e : Except DecodeError Frame) (f : Frame) : Bool :=
  match e with
  | .ok g => g = f
  | .error _ => false

/-- A session just opened. -/
def opened : State := { State.reset with fsm := .ready }

/-- A session with the frame of T-ENC-1 held, the cursor at its first payload bit. -/
def holding : State := { opened with fsm := .decoding, frameIn := packedExampleBytes }

/-- n zero bytes. -/
def zeros (n : Nat) : List Byte := List.replicate n 0

/-! ## Well-formedness -/

theorem test_wf_refuses_lag_below : (Instr.ltsyn 0 39 3277).wf = false := by decide
theorem test_wf_refuses_lag_above : (Instr.ltsyn 0 121 3277).wf = false := by decide
theorem test_wf_refuses_gain : (Instr.ltsyn 0 40 32768).wf = false := by decide
theorem test_wf_refuses_width : (Instr.getBits 8).wf = false := by decide
theorem test_wf_accepts : (Instr.ltsyn 3 120 32767).wf = true ∧ (Instr.getBits 7).wf = true := by decide
theorem test_frame_wf_accepts : packedExample.wf .four .fr = true := by decide +kernel
theorem test_frame_wf_refuses_pad : ({ packedExample with pad := 16 } : Frame).wf .four .fr = false := by
  decide +kernel
theorem test_frame_wf_refuses_larc :
    ({ packedExample with larc := packedExample.larc.set 2 32 } : Frame).wf .four .fr = false := by decide +kernel
/-- One subframe field of T-ENC-1's first record out of its range at a time (R64). -/
def badSubframes : List Subframe :=
  [{ packedExample.sub[0] with lag := 128 }, { packedExample.sub[0] with gain := 4 },
    { packedExample.sub[0] with off := 4 }, { packedExample.sub[0] with maxIdx := 64 },
    { packedExample.sub[0] with x := packedExample.sub[0].x.set 12 8 }]
theorem test_subframe_wf_refuses : (badSubframes.all fun f => !f.wf .fr 0) = true := by decide +kernel
theorem test_params_wf_accepts : paramsCandidate.wf = true := by decide +kernel
theorem test_params_wf_refuses_gain :
    ({ paramsCandidate with ltpGainTab := #v[0, 0, 0, 32768] } : Params).wf = false := by decide +kernel
theorem test_params_wf_refuses_requant :
    ({ paramsCandidate with
        requantTab := { requantCandidate with w3 := #v[0, 1, 2, 3, 4, 5, 7, 6] } } : Params).wf = false := by
  decide +kernel

/-! ## Decoding: words written out from the spec's encoding -/

/-- The 264 bits of T-ENC-1, field by field as the spec groups them: the padding and the eight LAR
indices. -/
def wordHead : List Nat :=
  [1,1,0,1, 1,0,0,0,0,0, 1,0,0,0,0,0, 1,0,1,0,0, 0,1,0,1,1, 1,0,0,0, 0,1,0,1, 0,1,1, 0,1,0]
/-- Subframe 0 of T-ENC-1. -/
def wordSub0 : List Nat :=
  [0,1,0,1,0,0,0, 0,0, 0,0, 0,0,0,0,0,0, 0,0,0, 0,0,1, 0,1,0, 0,1,1, 1,0,0, 1,0,1, 1,1,0, 1,1,1, 0,0,0,
    0,0,1, 0,1,0, 0,1,1, 1,0,0]
/-- Subframe 1 of T-ENC-1. -/
def wordSub1 : List Nat :=
  [1,1,1,1,0,0,0, 1,1, 1,1, 1,1,1,1,1,1, 1,1,1, 1,1,1, 1,1,1, 1,1,1, 1,1,1, 1,1,1, 1,1,1, 1,1,1, 1,1,1,
    1,1,1, 1,1,1, 1,1,1, 1,1,1]
/-- Subframe 2 of T-ENC-1. -/
def wordSub2 : List Nat :=
  [0,0,0,0,0,0,0, 0,1, 0,1, 1,0,0,0,0,0, 1,0,0, 1,0,0, 1,0,0, 1,0,0, 1,0,0, 1,0,0, 1,0,0, 1,0,0, 1,0,0,
    1,0,0, 1,0,0, 1,0,0, 1,0,0]
/-- Subframe 3 of T-ENC-1. -/
def wordSub3 : List Nat :=
  [1,1,1,1,1,1,1, 1,0, 1,0, 0,1,0,0,0,0, 0,0,0, 0,0,0, 0,0,0, 0,0,0, 0,0,0, 0,0,0, 0,0,0, 0,0,0, 0,0,0,
    0,0,0, 0,0,0, 0,0,0, 1,1,1]
/-- The bits of T-ENC-1 cut into bytes, first bit = bit 7 (R71). -/
def wordBytes : List Byte :=
  packBytes ((wordHead ++ wordSub0 ++ wordSub1 ++ wordSub2 ++ wordSub3).map fun b => b == 1)

theorem test_word_is_the_bytes : wordBytes = packedExampleBytes := by decide +kernel
theorem test_word_decodes : decodesTo (decodeFrame .four .fr wordBytes) packedExample = true := by decide +kernel
/-- T-ENC-1's bytes as the opcode table numbers a word: the first byte is bits 7..0. -/
theorem test_table_word : decodeTableWord 264
    0x0700000000_48FF24499224_49B000_FFFFFFFFFFFF_F19C_82BB9C02_00505AE1A220D8 =
      some (.decodeFrame packedExampleBytes) := by decide +kernel
/-- A table word shorter than the frame: the bits above it are 0. -/
theorem test_table_word_short : decodeTableWord 8 0x1FF = some (.decodeFrame (0xFF :: zeros 32)) := by decide
/-- A row of no bits has no word. -/
theorem test_table_word_none : decodeTableWord 0 0 = none := by decide
/-- T-ENC-2: `PAD_LEAD` = 0 reads the same bytes with every field shifted by four bits. -/
theorem test_pad_zero : (match decodeFrame .zero .fr packedExampleBytes with
    | .ok f => decide (f.larc = #v[54, 2, 1, 8, 11, 8, 2, 5] ∧ f.sub[0].lag = 82 ∧ f.sub[0].gain = 2)
    | .error _ => false) = true := by decide +kernel
theorem test_decode_open : decode ⟨.sessionOpen, .fr, []⟩ = .sessionOpen .fr := by decide
theorem test_decode_close : decode ⟨.sessionClose, .fr, []⟩ = .sessionClose := by decide
theorem test_decode_frame : decode ⟨.decodeFrame, .fr, [7]⟩ = .decodeFrame [7] := by decide

/-! ## Primitives -/

/-- T-ARITH-1. -/
theorem test_round_mul_ties_up :
    next (exec (.roundMul (-1) 16384) opened) (fun t => t.ret = 0) = true ∧
      next (exec (.roundMul (-1) 16385) opened) (fun t => t.ret = -1) = true := by decide
/-- T-ARITH-1: the result is not saturated. -/
theorem test_round_mul_not_saturated :
    next (exec (.roundMul (-32768) (-32768)) opened) (fun t => t.ret = 32768) = true := by decide
/-- T-ARITH-2. -/
theorem test_clip16 :
    next (exec (.clip16 65536) opened) (fun t => t.ret = 32767) = true ∧
      next (exec (.clip16 (-32769)) opened) (fun t => t.ret = -32768) = true := by decide
/-- T-ARITH-2. -/
theorem test_wrap16 :
    next (exec (.wrap16 61439) opened) (fun t => t.ret = -4097) = true ∧
      next (exec (.wrap16 (-32769)) opened) (fun t => t.ret = 32767) = true := by decide
/-- T-ARITH-2. -/
theorem test_wrap32 :
    next (exec (.wrap32 4288192971) opened) (fun t => t.ret = -6774325) = true ∧
      next (exec (.wrap32 2147483648) opened) (fun t => t.ret = -2147483648) = true := by decide
/-- T-ENC-1: `LARC[0]` = 32 crosses a byte boundary. -/
theorem test_get_bits : next (exec (.getBits 6) holding) (fun t => t.ret = 32 ∧ t.bitpos = 6) = true := by decide
/-- R61, R62: at the last bit; a width of 0 still reads. -/
theorem test_get_bits_at_the_end :
    next (exec (.getBits 1) { holding with bitpos := 260 }) (fun t => t.resp = some .truncatedInput) = true ∧
      next (exec (.getBits 0) { holding with bitpos := 260 }) (fun t => t.ret = 0 ∧ t.resp = none) = true := by
  decide

/-! ## LAR decoding and the short-term filter -/

/-- T-LAR-2, first row: the all-zero frame; slot 0 is written, slot 1 is not. -/
theorem test_lardec_zero : next (exec .lardec { holding with frameIn := zeros 33 }) (fun t =>
    ((t.lar[0]).map BitVec.toInt) = #v[-26214, -26214, -16384, -9012, -9832, -4916, -6554, -3278] ∧
      t.larAt 1 0 = 0 ∧ t.bitpos = 36) = true := by decide +kernel
/-- T-LAR-2, second row, into slot 1. -/
theorem test_lardec_slot_one : next (exec .lardec { holding with larSlot := 1 }) (fun t =>
    ((t.lar[1]).map BitVec.toInt) = #v[0, 0, 0, 0, -220, 546, -656, 436]) = true := by decide +kernel
/-- T-LAR-3: the rounding of conflict C2. -/
theorem test_lar_rounds : larValue 0 1 = -25394 := by decide
/-- T-REF-1. -/
theorem test_reflect_boundaries :
    next (exec (.reflect 11059) opened) (fun t => t.ret = 22118) = true ∧
      next (exec (.reflect (BitVec.ofInt 32 (-20070))) opened) (fun t => t.ret = -31129) = true := by decide
/-- T-BLEND-1, rows 2 and 6: each term is shifted on its own. -/
theorem test_larblend_terms :
    next (exec (.larblend 0) { opened with lar := #v[#v[toWord (-26214), 3, 0, 0, 0, 0, 0, 0],
      #v[toWord (-26214), 3, 0, 0, 0, 0, 0, 0]] }) (fun t => (t.rrp[0]).toInt = -32665 ∧ t.rrp[1] = 2) = true := by
  decide +kernel
/-- T-BLEND-1, row 9: which slot is the previous set. -/
theorem test_larblend_slots :
    next (exec (.larblend 0) { opened with larSlot := 1, lar := #v[#v[toWord (-9012), 0, 0, 0, 0, 0, 0, 0],
      #v[7782, 0, 0, 0, 0, 0, 0, 0]] }) (fun t => (t.rrp[0]).toInt = -9628) = true := by decide +kernel
/-- T-LAT-4. -/
theorem test_latstep_full_scale :
    next (exec (.latstep 32767) { opened with
      rrp := #v[32460, toWord (-32665), 31129, toWord (-31128), 22118, toWord (-22116), 100, toWord (-100)],
      v := #v[30000, toWord (-30000), 20000, toWord (-20000), 10000, toWord (-10000), 5000, toWord (-5000), 7] })
      (fun t => t.ret = -78385 ∧ t.v.map BitVec.toInt =
        #v[-78385, -47648, 18514, 2177, -20227, 22985, -27540, 5100, -5100]) = true := by decide +kernel
/-- T-LAT-5: the narrowing acts. -/
theorem test_latstep_wraps :
    next (exec (.latstep 32767) { opened with
      rrp := #v[0, 0, 0, 0, 0, 0, 0, toWord (-32665)], v := #v[0, 0, 0, 0, 0, 0, 0, 2147483647, 0] })
      (fun t => t.ret = 2140766206 ∧ t.v[(8 : Fin 9)] = 13446534 ∧ t.v[(7 : Fin 9)] = 0) = true := by decide +kernel
/-- T-LAT-3 through STSYN: the second sample of program P1. -/
theorem test_stsyn_second_sample :
    next (exec .stsyn { opened with
      lar := #v[#v[toWord (-26214), toWord (-26214), toWord (-16384), toWord (-9012), toWord (-9832),
        toWord (-4916), toWord (-6554), toWord (-3278)], Vector.replicate 8 0]
      exc := Vector.ofFn fun a => if a.val = 120 then toSample (-28) else 0 })
      (fun t => (t.pcm[1]).toInt = -2) = true := by decide +kernel

/-! ## The excitation -/

/-- The ramp of T-LTP-2: `EXC[n]` = n - 60. -/
def ramp : State := { opened with exc := Vector.ofFn fun n => toSample (n.val - 60) }

/-- T-LTP-2, rows 1 and 2: the window at both lag extremes, coded out of range. -/
theorem test_ltsyn_window :
    next (exec (.ltsyn 0 39 32767) ramp) (fun t => t.excAt 120 = 20 ∧ t.excAt 159 = 59) = true ∧
      next (exec (.ltsyn 0 121 32767) ramp) (fun t => t.excAt 120 = -60 ∧ t.excAt 159 = -21) = true := by
  decide +kernel
/-- T-LTP-2, row 5: the scaling rounds. -/
theorem test_ltsyn_scales :
    next (exec (.ltsyn 0 77 21299) ramp) (fun t => t.excAt 120 = -11 ∧ t.excAt 124 = -8) = true := by decide +kernel
/-- T-APCM-2, rows 1 and 10: the pulse is added and the sum wraps. -/
theorem test_apcmadd_wraps :
    next (exec (.apcmadd 0 0) { holding with frameIn := zeros 33 }) (fun t => t.excAt 120 = -28 ∧
      t.excAt 121 = 0 ∧ t.bitpos = 45) = true ∧
    next (exec (.apcmadd 3 3) { holding with
      frameIn := List.replicate 33 255, exc := Vector.replicate 280 32766 }) (fun t => t.excAt 279 = -4099 ∧
      t.excAt 278 = 32766) = true := by decide +kernel
/-- T-HIST-1. -/
theorem test_histshift :
    next (exec .histshift { opened with exc := Vector.ofFn fun n => BitVec.ofNat 16 n.val }) (fun t =>
      t.excAt 0 = 160 ∧ t.excAt 119 = 279 ∧ t.excAt 120 = 120) = true := by decide +kernel

/-! ## The post-filter, the slot, the commands -/

/-- T-DE-2, sequence b: samples 3 to 5. -/
theorem test_deemph_saturates :
    next (exec .deemph { opened with
      pcm := Vector.ofFn fun i => if i.val < 4 then toSample 32767 else toSample (-32768) })
      (fun t => t.pcmAt 3 = 32760 ∧ t.pcmAt 4 = -9184 ∧ t.pcmAt 5 = -32768) = true := by decide +kernel
/-- R131. -/
theorem test_lartoggle :
    next (exec .lartoggle opened) (fun t => t.larSlot = 1) = true ∧
      next (exec .lartoggle { opened with larSlot := 1 }) (fun t => t.larSlot = 0) = true := by decide
/-- P6: opening a session over another zeroes it. -/
theorem test_session_open :
    next (exec (.sessionOpen .fr) { opened with msr := 5, larSlot := 1 }) (fun t =>
      t.fsm = .ready ∧ t.resp = some .ok ∧ t.msr = 0 ∧ t.larSlot = 0) = true := by decide
/-- P6: a close in Idle is a no-op with OK. -/
theorem test_session_close :
    next (exec .sessionClose opened) (fun t => t.fsm = .idle ∧ t.resp = some .ok) = true ∧
      next (exec .sessionClose State.reset) (fun t => t.fsm = .idle ∧ t.resp = some .ok) = true := by decide
/-- P6: NoSession is tested before the length. -/
theorem test_decode_no_session :
    next (exec (.decodeFrame (zeros 10)) State.reset) (fun t => t.resp = some .noSession) = true := by decide
/-- T-TRUNC-1: 32 bytes fail, 33 pass. -/
theorem test_decode_length :
    next (exec (.decodeFrame (zeros 32)) opened) (fun t => t.resp = some .truncatedInput) = true ∧
      next (exec (.decodeFrame (zeros 33)) opened) (fun t => t.resp = some .ok ∧ t.larSlot = 1) = true := by
  decide +kernel
/-- P1: the first and third delivered samples of the all-zero frame. -/
theorem test_decode_samples :
    next (exec (.decodeFrame (zeros 33)) opened) (fun t => t.pcmAt 0 = -56 ∧ t.pcmAt 2 = -64) = true := by
  decide +kernel
/-- The step runs the command at the port as the first instruction after reset. -/
theorem test_step_runs :
    next (step (State.reset.withFetchWord 264 0xD8)) (fun t => t.resp = some .noSession ∧ t.inputs = []) = true := by
  decide
/-- D11: the codes of the responses. -/
theorem test_codes : Resp.ok.code = 0 ∧ Resp.truncatedInput.code = 1 ∧ Resp.noSession.code = 2 := by decide

/-! ## Witnesses: the hypotheses of each statement can be met -/

theorem witness_GetBitsReadsMostSignificantFirst :
    cursor holding + 6 ≤ 8 * holding.frameIn.length ∧
      cursor { holding with bitpos := 257 } + 3 ≤ 8 * holding.frameIn.length := by decide
theorem witness_ReaderRunningOutEndsTheCommand :
    8 * holding.frameIn.length < cursor { holding with bitpos := 260 } + 1 ∧
      8 * holding.frameIn.length < cursor { holding with bitpos := 225 } + 36 ∧
      8 * holding.frameIn.length < cursor { holding with bitpos := 216 } + 6 + residualBits .fr 3 13 := by decide
theorem witness_LardecDecodesEightLars : cursor holding + 36 ≤ 8 * holding.frameIn.length := by decide
theorem witness_LardecFollowsTheCompleteTable :
    cursor { holding with bitpos := 224 } + 36 ≤ 8 * holding.frameIn.length := by decide
theorem witness_ReflectTransformsTheMagnitude :
    (BitVec.ofInt 32 (-(2 ^ 31) + 1)).toInt ≠ -(2 ^ 31) ∧ (20070 : Word).toInt ≠ -(2 ^ 31) := by decide
/-- Boundary operands of each clause: odd, monotone across a boundary, each region's slope. -/
theorem witness_ReflectGrowsByRegionAndIsOdd :
    (BitVec.ofInt 32 (-11059)).toInt = -(11059 : Word).toInt ∧
      (0 ≤ (11058 : Word).toInt ∧ (11058 : Word).toInt ≤ (11059 : Word).toInt) ∧
      (0 ≤ (11057 : Word).toInt ∧ (11058 : Word).toInt = (11057 : Word).toInt + 1 ∧ (11058 : Word).toInt < 11059) ∧
      (11059 ≤ (20068 : Word).toInt ∧ (20069 : Word).toInt = (20068 : Word).toInt + 1 ∧
        (20069 : Word).toInt < 20070) ∧
      20070 ≤ (20070 : Word).toInt ∧ (20074 : Word).toInt = (20070 : Word).toInt + 4 := by decide
theorem witness_LarblendComputesTheCoefficients : blendIn opened 0 0 ≠ -(2 ^ 31) := by decide
/-- A LAR register file that the all-zero frame leaves (P1). -/
theorem witness_ReachableCoefficientsAreBelowOne : LarLegal opened := by
  intro slot i
  left
  revert slot i
  decide
theorem witness_LatstepWorkedExample :
    ((#v[16384, toWord (-16384), 8192, 0, 0, 0, 0, 32460] : Vector Word 8).toList.map BitVec.toInt =
      [16384, -16384, 8192, 0, 0, 0, 0, 32460]) ∧
    ((#v[100, toWord (-200), 300, 0, 0, 0, 0, 1000, 5] : Vector Word 9).toList.map BitVec.toInt =
      [100, -200, 300, 0, 0, 0, 0, 1000, 5]) := by decide
theorem witness_SilentLatticeStaysSilent :
    (∀ i : Fin 160, opened.exc[120 + i.val] = 0) ∧ ∀ j : Fin 8, opened.v[j.castSucc] = 0 := by
  decide +kernel
/-- Both ends of the written range and of what lies outside it, at each clamp of the lag. -/
theorem witness_LtsynScalesTheLaggedWindow :
    (40 = if 39 < 40 then 40 else if 39 > 120 then 120 else 39) ∧
      (120 = if 120 < 40 then 40 else if 120 > 120 then 120 else 120) ∧
      (120 = if 121 < 40 then 40 else if 121 > 120 then 120 else 121) ∧
      (119 : Fin 280).val < 120 + 40 * (0 : Fin 4).val ∧ 160 + 40 * (0 : Fin 4).val ≤ (160 : Fin 280).val := by decide
theorem witness_LtsynNeedsNoNarrowing : 40 ≤ 40 ∧ 120 ≤ 120 ∧ (32767 : BitVec 16).toNat ≤ 32767 := by decide
theorem witness_ApcmaddAddsThirteenPulses :
    cursor { holding with bitpos := 215 } + 6 + residualBits .fr 3 13 ≤ 8 * holding.frameIn.length ∧
      (∀ j : Fin 13, (278 : Fin 280) ≠ pulseAt 3 3 j) := by decide +kernel
theorem witness_HistshiftCopiesTheTail :
    (0 : Fin 280).val < 120 ∧ (119 : Fin 280).val < 120 ∧ 120 ≤ (120 : Fin 280).val ∧ 120 ≤ (279 : Fin 280).val := by
  decide
/-- A ready session and the all-zero frame: the hypotheses of every statement about a decode that
completes. -/
theorem witness_complete_decode : opened.fsm = .ready ∧ longEnough opened (zeros 33) := by
  refine ⟨rfl, ?_⟩
  unfold longEnough
  decide
theorem witness_OutputSamplesAreMultiplesOfEight : opened.fsm = .ready ∧ longEnough opened (zeros 33) :=
  witness_complete_decode
theorem witness_CompleteFrameDecodesWithOk : opened.fsm = .ready ∧ longEnough opened (zeros 34) :=
  ⟨rfl, by unfold longEnough; decide⟩
theorem witness_DecodeWritesTheCurrentSlotThenToggles : opened.fsm = .ready ∧ longEnough opened packedExampleBytes :=
  ⟨rfl, by unfold longEnough; decide⟩
theorem witness_DecodeCarriesTheHistoryTail : opened.fsm = .ready ∧ longEnough opened packedExampleBytes :=
  ⟨rfl, by unfold longEnough; decide⟩
theorem witness_AccumulatorRestsAtSevenValues :
    (∀ i : Fin 160, opened.pcm[i] = 0) ∧ -3 ≤ (toSample (-3)).toInt ∧ (3 : Sample).toInt ≤ 3 := by decide +kernel
theorem witness_SessionOpenZeroesTheDecoderState :
    State.reset.fsm = .idle ∧ opened.fsm = .ready := by decide
theorem witness_SessionCloseEndsTheSession : opened.fsm = .ready ∧ State.reset.fsm = .idle := by decide
theorem witness_FailedDecodeChangesNothing :
    State.reset.fsm = .idle ∧ opened.fsm = .ready ∧
      8 * (zeros 32).length < opened.params.padLead.bits + payloadBits opened.cfgMode ∧
      opened.params.padLead.bits + payloadBits opened.cfgMode ≤ 8 * (zeros 33).length := by decide
theorem witness_FailedDecodeLeavesNoTrace :
    opened.fsm = .ready ∧ ¬ longEnough opened (zeros 32) ∧ longEnough opened (zeros 33) := by
  refine ⟨rfl, ?_, ?_⟩ <;> unfold longEnough <;> decide
theorem witness_DecodeRunsTheStepList :
    opened.fsm = .ready ∧
      ∃ f, decodeFrame opened.params.padLead opened.cfgMode packedExampleBytes = .ok f := ⟨rfl, _, rfl⟩
/-- Two inputs that differ in the padding and in a trailing byte only (T-ENC-2). -/
theorem witness_PaddingAndTrailingBitsAreIgnored :
    longEnough opened (zeros 33) ∧ longEnough opened (0xF0 :: zeros 33) ∧
      samePayload opened (zeros 33) (0xF0 :: zeros 33) := by
  refine ⟨by unfold longEnough; decide, by unfold longEnough; decide, ?_⟩
  have all : ∀ q < 264, 4 ≤ q → frameBit (zeros 33) q = frameBit (0xF0 :: zeros 33) q := by decide +kernel
  exact fun q h h' => all q (h'.trans_le (by decide)) h
theorem witness_DecodeIsAPureFunction :
    SameDecoderState opened { opened with bitpos := 7, resp := some .ok } ∧
      opened.params = { opened with bitpos := 7, resp := some .ok }.params ∧ opened.fsm = .ready ∧
      longEnough opened (zeros 33) ∧ longEnough opened (0xF0 :: zeros 33) ∧
      samePayload opened (zeros 33) (0xF0 :: zeros 33) :=
  ⟨⟨rfl, rfl, rfl, rfl, rfl, rfl, rfl⟩, rfl, rfl, witness_PaddingAndTrailingBitsAreIgnored⟩
theorem witness_DeadStateCannotMatter :
    opened.fsm = .ready ∧ longEnough opened (zeros 33) ∧
      ∀ a : Fin 120, (Vector.ofFn fun n : Fin 280 => if n.val < 120 then (0 : Sample) else 9)[a.val] =
        opened.exc[a.val] :=
  ⟨rfl, witness_complete_decode.2, by decide +kernel⟩
theorem witness_EveryStepKeepsTheInvariant : Inv opened ∧ step opened = .next opened :=
  ⟨⟨by decide, fun _ => witness_ReachableCoefficientsAreBelowOne⟩, rfl⟩
theorem witness_ParametersAndModeAreStable :
    exec .lartoggle opened = .next opened.lartoggle ∧ (∀ m, Instr.lartoggle ≠ .sessionOpen m) ∧
      Instr.lartoggle ≠ .sessionClose ∧ step opened = .next opened :=
  ⟨rfl, nofun, by decide, rfl⟩
/-- A step that changes `CFG_MODE`: a session of another mode, all widths 0, is opened. -/
theorem witness_ParametersAndModeAreStable_step :
    next (step { opened with inputs := [.command ⟨.sessionOpen, .other default, []⟩] })
      (fun t => t.cfgMode ≠ opened.cfgMode) = true := by decide +kernel
theorem witness_OnlySessionOpenLeavesIdle :
    State.reset.fsm = .idle ∧ ∃ t,
      step { State.reset with inputs := [.command ⟨.sessionOpen, .fr, []⟩] } = .next t ∧ t.fsm ≠ .idle :=
  ⟨rfl, _, rfl, by decide⟩
theorem witness_IdleContentsCannotMatter :
    State.reset.fsm = .idle ∧ { State.reset with msr := 9 }.fsm = .idle ∧
      State.reset.inputs = { State.reset with msr := 9 }.inputs ∧
      State.reset.params = { State.reset with msr := 9 }.params ∧ State.reset.pcm = { State.reset with msr := 9 }.pcm ∧
      State.reset.resp = { State.reset with msr := 9 }.resp := ⟨rfl, rfl, rfl, rfl, rfl, rfl⟩
theorem witness_HardResetPutsTheBlockInIdle :
    { opened with inputs := [.hardReset] }.inputs = .hardReset :: [] := rfl
theorem witness_StepRunsTheOldestCommand :
    { opened with inputs := [.command ⟨.sessionClose, .fr, []⟩] }.inputs = .command ⟨.sessionClose, .fr, []⟩ :: [] ∧
      { opened with inputs := [.command ⟨.sessionClose, .fr, []⟩] }.fsm ≠ .decoding ∧
      decodeTableWord 264 0 = some (.decodeFrame (zeros 33)) := by decide
theorem witness_WaitingPreservesAllState :
    opened.inputs = [] ∧ holding.fsm = .decoding ∧
      { holding with inputs := [.command ⟨.sessionClose, .fr, []⟩] }.inputs =
        .command ⟨.sessionClose, .fr, []⟩ :: [] := by decide
theorem witness_EveryCommandGetsOneResponse :
    { opened with inputs := [.command ⟨.decodeFrame, .fr, zeros 32⟩] }.inputs =
        .command ⟨.decodeFrame, .fr, zeros 32⟩ :: [] ∧
      { opened with inputs := [.command ⟨.decodeFrame, .fr, zeros 32⟩] }.fsm ≠ .decoding := by decide
theorem witness_FrameRoundTrip : packedExample.wf .four .fr = true := test_frame_wf_accepts
theorem witness_EveryPatternIsAFrame : packedExampleBytes.length = 33 := by decide
theorem witness_FieldsStandAtTheirPositions :
    PadLead.four.bits + 260 ≤ 8 * packedExampleBytes.length ∧ PadLead.zero.bits + 260 ≤ 8 * packedExampleBytes.length ∧
      208 = PadLead.four.bits + 36 + 56 * (3 : Fin 4).val := by decide
theorem witness_OnlyShortInputIsRefused :
    8 * (zeros 32).length < PadLead.four.bits + payloadBits .fr ∧
      PadLead.four.bits + payloadBits .fr ≤ 8 * (zeros 33).length ∧
      PadLead.zero.bits + payloadBits .fr ≤ 8 * (zeros 33).length := by decide
theorem witness_EncodedLarsReachTheRegisters :
    opened.fsm = .ready ∧ packedExample.wf opened.params.padLead opened.cfgMode = true :=
  ⟨rfl, test_frame_wf_accepts⟩
theorem witness_CommandPortSelectsTheCommands :
    (∃ r, decode r = .sessionClose) ∧ ∃ r, encode .sessionClose = some r :=
  ⟨⟨⟨.sessionClose, .fr, []⟩, rfl⟩, _, rfl⟩
theorem witness_FirstSubframeOfASessionIsZero : ∀ a : Fin 120, opened.exc[a.val] = 0 := by decide +kernel

/-- Two different states alike but for the exchange: the flipped index of a fresh session. -/
theorem witness_SlotExchangeIsKeptByEveryStep :
    SlotsExchanged opened opened.exchangeSlots ∧ opened.exchangeSlots ≠ opened := ⟨.inr rfl, by decide +kernel⟩
/-- Each side of the equivalence: -3 is kept, 4 is not (R123). -/
theorem test_deemph_rests :
    next (exec .deemph { opened with msr := toSample (-3) }) (fun t => t.msr = toSample (-3) ∧ t.pcmAt 0 = -8) = true ∧
      next (exec .deemph { opened with msr := 4 }) (fun t => t.msr = 3) = true := by decide +kernel
/-- A coded lag of 127 reaches `LTSYN` clamped, so the list's operands are well-formed (R129). -/
theorem test_subframe_program_wf :
    ((subframeProgram paramsCandidate 3 packedExample.sub[3]).all Instr.wf) = true := by decide +kernel

end Sys2Proof.Tests
end

/-! What an instruction does to the tables and to `CFG_MODE` (R10, R11): all that each meaning can do
first, then what it keeps. -/

namespace Sys2Proof.Machine

/-- The state after holds the tables, `PAD_LEAD` and `CFG_MODE` of the state before (R10, R11). -/
def KeepsConfig (s t : State) : Prop :=
  t.params = s.params ∧ t.cfgMode = s.cfgMode

theorem keepsConfig_refl (s : State) : KeepsConfig s s := ⟨rfl, rfl⟩

theorem keepsConfig_raise (s : State) (r : Resp) : KeepsConfig s (s.raise r) := ⟨rfl, rfl⟩

/-- The meaning of an operation that always completes keeps what the operation keeps. -/
theorem keepsConfig_of_next {s u t : State}
    (h : (.next u : Host.Outcome State Fault Refusal) = .next t) (hu : KeepsConfig s u) :
    KeepsConfig s t :=
  Host.Outcome.next.inj h ▸ hu

/-- All `LARDEC` can do: complete, or run out of frame bits (R61, R90). -/
theorem execLardec_cases {s t : State} (h : execLardec s = .next t) :
    s.lardec = some t ∨ s.lardec = none ∧ t = s.raise .truncatedInput := by
  unfold execLardec at h
  split at h <;> cases h
  · exact .inl ‹_›
  · exact .inr ⟨‹_›, rfl⟩

/-- All `APCMADD` can do: complete, or run out of frame bits (R61, R116). -/
theorem execApcmadd_cases {k : Fin 4} {o : BitVec 2} {s t : State} (h : execApcmadd k o s = .next t) :
    s.apcmadd k o = some t ∨ s.apcmadd k o = none ∧ t = s.raise .truncatedInput := by
  unfold execApcmadd at h
  split at h <;> cases h
  · exact .inl ‹_›
  · exact .inr ⟨‹_›, rfl⟩

/-- All `GetBits` can do: return the bits with the cursor advanced, or run out of them (R61, R62). -/
theorem execGetBits_cases {n : Nat} {s t : State} (h : execGetBits n s = .next t) :
    (∃ v, readBits s.frameIn (s.params.padLead.bits + s.bitpos) n = some v ∧
      t = { s with bitpos := s.bitpos + n, ret := v }) ∨
    (s.getBits n = none ∧ t = s.raise .truncatedInput) := by
  unfold execGetBits at h
  split at h <;> cases h
  · obtain ⟨hread, hu⟩ := getBits_eq_some.mp ‹_›
    exact .inl ⟨_, hread, by rw [hu]⟩
  · exact .inr ⟨‹_›, rfl⟩

/-- All `SESSION_OPEN` can do, by what it finds (R160; in Decoding log entry 10). -/
theorem execSessionOpen_cases (mode : Mode) (s : State) :
    (s.fsm = .decoding ∧ execSessionOpen mode s = .next s) ∨
    (s.fsm ≠ .decoding ∧
      execSessionOpen mode s = .next ((s.freshSession mode).discardWork.respond .ok)) := by
  unfold execSessionOpen
  cases s.fsm
  case decoding => exact .inl ⟨rfl, rfl⟩
  all_goals exact .inr ⟨nofun, rfl⟩

/-- All `SESSION_CLOSE` can do, by what it finds (R162; in Decoding log entry 10). -/
theorem execSessionClose_cases (s : State) :
    (s.fsm = .decoding ∧ execSessionClose s = .next s) ∨
    (s.fsm = .idle ∧ execSessionClose s = .next (s.respond .ok)) ∨
    (s.fsm = .ready ∧ execSessionClose s = .next (s.discardSession.discardWork.respond .ok)) := by
  unfold execSessionClose
  cases s.fsm
  case decoding => exact .inl ⟨rfl, rfl⟩
  case idle => exact .inr (.inl ⟨rfl, rfl⟩)
  case ready => exact .inr (.inr ⟨rfl, rfl⟩)

theorem larblend_keepsConfig (s : State) (r : Fin 4) : KeepsConfig s (s.larblend r) := by
  rw [larblend_eq]; exact ⟨rfl, rfl⟩

theorem stsyn_keepsConfig (s : State) : KeepsConfig s s.stsyn := by
  obtain ⟨w, q, o, hs⟩ := stsyn_frame s
  rw [hs]; exact ⟨rfl, rfl⟩

theorem ltsyn_keepsConfig (s : State) (k : Fin 4) (lag : Nat) (g : BitVec 16) :
    KeepsConfig s (s.ltsyn k lag g) := by
  obtain ⟨e, he⟩ := ltsyn_frame s k lag g
  rw [he]; exact ⟨rfl, rfl⟩

theorem histshift_keepsConfig (s : State) : KeepsConfig s s.histshift := by
  obtain ⟨e, he⟩ := histshift_frame s
  rw [he]; exact ⟨rfl, rfl⟩

theorem deemph_keepsConfig (s : State) : KeepsConfig s s.deemph := by
  obtain ⟨⟨o, ho⟩, -⟩ := deemph_spec s
  rw [ho]; exact ⟨rfl, rfl⟩

theorem execLardec_keepsConfig {s t : State} (h : execLardec s = .next t) : KeepsConfig s t := by
  obtain done | ⟨-, rfl⟩ := execLardec_cases h
  · obtain ⟨l, rfl⟩ := (lardec_eq_some done).frame
    exact ⟨rfl, rfl⟩
  · exact keepsConfig_raise s _

theorem execApcmadd_keepsConfig {k : Fin 4} {o : BitVec 2} {s t : State}
    (h : execApcmadd k o s = .next t) : KeepsConfig s t := by
  obtain done | ⟨-, rfl⟩ := execApcmadd_cases h
  · obtain ⟨m, -, pulses⟩ := apcmadd_eq_some done
    obtain ⟨e, rfl⟩ := pulses.frame
    exact ⟨rfl, rfl⟩
  · exact keepsConfig_raise s _

theorem execGetBits_keepsConfig {n : Nat} {s t : State} (h : execGetBits n s = .next t) :
    KeepsConfig s t := by
  obtain ⟨v, -, rfl⟩ | ⟨-, rfl⟩ := execGetBits_cases h
  · exact ⟨rfl, rfl⟩
  · exact keepsConfig_raise s _

theorem execDecodeFrame_keepsConfig {frame : List Byte} {s t : State}
    (h : execDecodeFrame frame s = .next t) : KeepsConfig s t := by
  obtain ⟨-, he⟩ | ⟨-, he⟩ | ⟨-, -, he⟩ | ⟨-, -, u, hu, he⟩ := execDecodeFrame_cases frame s
  all_goals cases he.symm.trans h
  · exact keepsConfig_refl s
  · exact keepsConfig_raise s _
  · exact keepsConfig_raise s _
  · obtain ⟨l, e, w, q, o, m, rfl⟩ := decodeSteps_frame hu
    exact ⟨rfl, rfl⟩

/-- R10, R11: every instruction but the two session commands keeps the tables and `CFG_MODE`. -/
theorem exec_keepsConfig {i : Instr} {s t : State} (h : exec i s = .next t)
    (hopen : ∀ m, i ≠ .sessionOpen m) (hclose : i ≠ .sessionClose) : KeepsConfig s t := by
  cases i with
  | sessionOpen m => exact absurd rfl (hopen m)
  | sessionClose => exact absurd rfl hclose
  | decodeFrame _ => exact execDecodeFrame_keepsConfig h
  | lardec => exact execLardec_keepsConfig h
  | apcmadd _ _ => exact execApcmadd_keepsConfig h
  | getBits _ => exact execGetBits_keepsConfig h
  | larblend r => exact keepsConfig_of_next h (larblend_keepsConfig s r)
  | stsyn => exact keepsConfig_of_next h (stsyn_keepsConfig s)
  | ltsyn k lag g => exact keepsConfig_of_next h (ltsyn_keepsConfig s k lag g)
  | histshift => exact keepsConfig_of_next h (histshift_keepsConfig s)
  | deemph => exact keepsConfig_of_next h (deemph_keepsConfig s)
  | latstep _ | lartoggle | reflect _ | roundMul _ _ | clip16 _ | wrap16 _ | wrap32 _ =>
    cases h
    exact ⟨rfl, rfl⟩

/-- R11: no instruction at all changes the tables or `PAD_LEAD`. -/
theorem exec_keeps_params {i : Instr} {s t : State} (h : exec i s = .next t) : t.params = s.params := by
  cases i with
  | sessionOpen m =>
    obtain ⟨-, he⟩ | ⟨-, he⟩ := execSessionOpen_cases m s
    all_goals
      cases he.symm.trans h
      rfl
  | sessionClose =>
    obtain ⟨-, he⟩ | ⟨-, he⟩ | ⟨-, he⟩ := execSessionClose_cases s
    all_goals
      cases he.symm.trans h
      rfl
  | _ => exact (exec_keepsConfig h nofun nofun).1

/-- The command port selects `DECODE_FRAME` by `CMD` alone (R72). -/
theorem decode_of_decodeFrame {r : Request} (h : r.cmd = .decodeFrame) :
    decode r = .decodeFrame r.frameIn := by
  rw [decode, h]

/-- R10: a command that changes `CFG_MODE` is a session command. -/
theorem session_of_exec_decode {r : Request} {s t : State} (h : exec (decode r) s = .next t)
    (changed : t.cfgMode ≠ s.cfgMode) : r.cmd = .sessionOpen ∨ r.cmd = .sessionClose := by
  cases hcmd : r.cmd with
  | sessionOpen => exact .inl rfl
  | sessionClose => exact .inr rfl
  | decodeFrame =>
    rw [decode_of_decodeFrame hcmd] at h
    exact absurd (exec_keepsConfig h nofun nofun).2 changed

/-- R10, R11 for one step: it keeps the tables, and where it changes `CFG_MODE` it took a session command
or the hard reset input. -/
theorem step_params_and_mode {s t : State} (h : step s = .next t) :
    t.params = s.params ∧
      (t.cfgMode ≠ s.cfgMode → ∃ rest, s.inputs = .hardReset :: rest ∨
        ∃ r, s.inputs = .command r :: rest ∧ (r.cmd = .sessionOpen ∨ r.cmd = .sessionClose)) := by
  obtain ⟨hs, -⟩ | ⟨rest, hin, hs⟩ | ⟨r, rest, hin, -, hs⟩ := step_cases s
  · cases hs.symm.trans h
    exact ⟨rfl, fun changed => absurd rfl changed⟩
  · cases hs.symm.trans h
    exact ⟨rfl, fun _ => ⟨rest, .inl hin⟩⟩
  · rw [hs] at h
    have kept := exec_keeps_params h
    exact ⟨kept, fun changed => ⟨rest, .inr ⟨r, hin, session_of_exec_decode h changed⟩⟩⟩

/-- Settles O41: the meanings one by one, then the three things a step can do. -/
theorem parametersAndModeAreStable : Obligations.ParametersAndModeAreStable :=
  ⟨fun _ _ _ h => ⟨exec_keeps_params h, fun hopen hclose => (exec_keepsConfig h hopen hclose).2⟩,
    fun _ _ h => step_params_and_mode h⟩

end Sys2Proof.Machine

/-! What a step runs (R18, R50). -/

namespace Sys2Proof.Machine

/-- R18, R50: with none in progress, a step runs the oldest command, taken off the inputs. -/
theorem step_of_command {s : State} {r : Request} {rest : List Input} (hin : s.inputs = .command r :: rest)
    (hfsm : s.fsm ≠ .decoding) : step s = exec (decode r) { s with inputs := rest } := by
  simp only [step, State.fetch, hin, if_neg hfsm]

/-- A command that is presented is run by the very next step, in Ready where one was in progress (log
entries 1 and 18). -/
theorem step_present (s : State) (r : Request) :
    step (s.present r) =
      exec (decode r) { s with fsm := if s.fsm = .decoding then .ready else s.fsm } := by
  have accepts : (s.present r).fsm ≠ .decoding := by
    rw [State.present_fsm]
    split
    · nofun
    · assumption
  exact step_of_command (State.present_inputs s r) accepts

/-- An opcode-table word that is an instruction is placed as the command it stands for (log entry 18). -/
theorem withFetchWord_eq_present {nbits w : Nat} {i : Instr} (h : decodeTableWord nbits w = some i)
    (s : State) :
    decode (tableRequest nbits w) = i ∧ s.withFetchWord nbits w = s.present (tableRequest nbits w) := by
  unfold decodeTableWord at h
  split at h
  · cases h
  · next hn => exact ⟨Option.some.inj h, if_neg hn⟩

/-- Settles O45, from what the fetch finds in the given state and after a word is placed. -/
theorem stepRunsTheOldestCommand : Obligations.StepRunsTheOldestCommand := by
  refine ⟨fun s r rest hin hfsm => step_of_command hin hfsm, fun s nbits w i hi => ?_⟩
  obtain ⟨rfl, hplace⟩ := withFetchWord_eq_present hi s
  rw [hplace, step_present]

end Sys2Proof.Machine

/-! The history requirement of the long-term filter (44_long_term_synth.md). -/

namespace Sys2Proof.Machine

/-- Settles O57: the window of subframe 0 ends below sample 120, so every sample read is one of the
carried history. -/
theorem firstSubframeOfASessionIsZero : Obligations.FirstSubframeOfASessionIsZero := by
  intro lag g s hist
  refine ⟨s.ltsyn 0 lag g, rfl, fun n => BitVec.eq_of_toInt_eq ?_⟩
  have hlo := le_clampLag lag
  have hread : s.excAt ⟨120 + n.val - clampLag lag, by omega⟩ = 0 := by
    simpa [State.excAt] using congrArg BitVec.toInt (hist ⟨120 + n.val - clampLag lag, by omega⟩)
  have hwrite := ltsyn_excAt s 0 lag g ⟨120 + n.val, by omega⟩
  rw [dif_pos (by simp only [Fin.val_zero]; omega), hread, roundMul_zero] at hwrite
  exact hwrite

end Sys2Proof.Machine

/-! What a decode can depend on (R32, 10_state.md sections 2 and 7): two states that agree on the live state
run the six steps alike. -/

namespace Sys2Proof

/-- The reader depends on the bits it reads alone (R62). -/
theorem readBits_congr {f g : List Byte} {p n : Nat}
    (same : ∀ q, p ≤ q → q < p + n → frameBit f q = frameBit g q) :
    readBits f p n = readBits g p n := by
  induction n with
  | zero => rfl
  | succ n ih =>
    rw [readBits, readBits, ih fun q lo hi => same q lo (by omega), same (p + n) (by omega) (by omega)]

end Sys2Proof

namespace Sys2Proof.Machine

open Sys2Proof.Rules

/-- `LAR` is determined by what `larAt` reads. -/
theorem lar_ext {s t : State} (h : ∀ slot i, s.larAt slot i = t.larAt slot i) : s.lar = t.lar :=
  Vector.ext fun slot hslot => Vector.ext fun i hi => h (BitVec.ofFin ⟨slot, hslot⟩) ⟨i, hi⟩

/-- `PCM` is determined by what `pcmAt` reads. -/
theorem pcm_ext {s t : State} (h : ∀ i, s.pcmAt i = t.pcmAt i) : s.pcm = t.pcm :=
  Vector.ext fun i hi => BitVec.eq_of_toInt_eq (h ⟨i, hi⟩)

/-- Two ascending loops over states related at each iteration end in related states. -/
theorem forUp_related_at {σ τ : Type} (R : Nat → σ → τ → Prop) (n : Nat) (f : (i : Nat) → i < n → σ → σ)
    (g : (i : Nat) → i < n → τ → τ) (s : σ) (t : τ) (start : R 0 s t)
    (carry : ∀ i (h : i < n) a b, R i a b → R (i + 1) (f i h a) (g i h b)) :
    R n (forUp n f s) (forUp n g t) := by
  induction n with
  | zero => exact start
  | succ n ih => exact carry n (Nat.lt_succ_self n) _ _ (ih _ _ fun i h => carry i (Nat.lt_succ_of_lt h))

/-- Two loops that both succeed, where an iteration may fail, end in related states. -/
theorem forUpM_related_some {σ τ : Type} (R : Nat → σ → τ → Prop) (n : Nat)
    (f : (i : Nat) → i < n → σ → Option σ) (g : (i : Nat) → i < n → τ → Option τ) {s u : σ} {t w : τ}
    (doneF : forUpM n f s = some u) (doneG : forUpM n g t = some w) (start : R 0 s t)
    (carry : ∀ i (h : i < n) a a' b b', R i a b → f i h a = some a' → g i h b = some b' → R (i + 1) a' b') :
    R n u w := by
  induction n generalizing u w with
  | zero => cases doneF; cases doneG; exact start
  | succ n ih =>
    rw [forUpM_succ] at doneF doneG
    obtain ⟨a, ha, hu⟩ := Option.bind_eq_some_iff.mp doneF
    obtain ⟨b, hb, hw⟩ := Option.bind_eq_some_iff.mp doneG
    exact carry n (Nat.lt_succ_self n) a u b w
      (ih _ _ ha hb fun i h => carry i (Nat.lt_succ_of_lt h)) hu hw

/-- Two states in a decode agree on all that can still matter: the decoder state without `V[8]` and without
the samples of `EXC` from n on, the tables, the cursor and the payload bits. -/
structure LiveAlike (n : Nat) (s s' : State) : Prop where
  fsm     : s.fsm = s'.fsm
  cfgMode : s.cfgMode = s'.cfgMode
  params  : s.params = s'.params
  lar     : s.lar = s'.lar
  larSlot : s.larSlot = s'.larSlot
  msr     : s.msr = s'.msr
  bitpos  : s.bitpos = s'.bitpos
  v       : ∃ w, s'.v = s.v.set 8 w
  exc     : ∀ a : Fin 280, a.val < n → s.excAt a = s'.excAt a
  payload : samePayload s s.frameIn s'.frameIn

variable {n : Nat} {s s' u u' : State}

/-- A field within the payload reads the same. -/
theorem LiveAlike.readBits_eq (h : LiveAlike n s s') {at_ width : Nat}
    (room : at_ + width ≤ payloadBits s.cfgMode) :
    readBits s.frameIn (s.params.padLead.bits + at_) width =
      readBits s'.frameIn (s'.params.padLead.bits + at_) width := by
  rw [← h.params]
  exact readBits_congr fun q lo hi => h.payload q (by omega) (by omega)

/-- `GetBits` within the payload returns the same value. -/
theorem getBits_alike (h : LiveAlike n s s') {width x x' : Nat}
    (room : s.bitpos + width ≤ payloadBits s.cfgMode)
    (hu : s.getBits width = some (x, u)) (hu' : s'.getBits width = some (x', u')) :
    x = x' ∧ LiveAlike n u u' := by
  obtain ⟨hx, rfl⟩ := getBits_eq_some.mp hu
  obtain ⟨hx', rfl⟩ := getBits_eq_some.mp hu'
  rw [← h.bitpos, ← h.readBits_eq room] at hx'
  exact ⟨Option.some.inj (hx.symm.trans hx'), { h with bitpos := by simp only [h.bitpos] }⟩

/-- Step 1: the current slot gets the values of the same indices, the other slot is kept (R90). -/
theorem lardec_alike (h : LiveAlike n s s') (room : s.bitpos + 36 ≤ payloadBits s.cfgMode)
    (hu : s.lardec = some u) (hu' : s'.lardec = some u') : LiveAlike n u u' := by
  have done := lardec_eq_some hu
  have done' := lardec_eq_some hu'
  have hlar : u.lar = u'.lar := by
    refine lar_ext fun slot i => ?_
    by_cases hslot : slot = s.larSlot
    · subst hslot
      obtain ⟨c, -, hc, hval⟩ := done.value i i.isLt i.isLt
      obtain ⟨c', -, hc', hval'⟩ := done'.value i i.isLt i.isLt
      have hi := larBits_mono (Nat.succ_le_of_lt i.isLt)
      rw [larBits_succ i.isLt, larBits_eight] at hi
      rw [← h.bitpos, ← h.readBits_eq (by omega)] at hc'
      obtain rfl := Option.some.inj (hc.symm.trans hc')
      rw [← h.larSlot] at hval'
      exact BitVec.eq_of_toInt_eq (hval.trans hval'.symm)
    · rw [done.rest slot i (.inl hslot), done'.rest slot i (.inl (h.larSlot ▸ hslot))]
      simp only [State.larAt, h.lar]
  obtain ⟨l, rfl⟩ := done.frame
  obtain ⟨l', rfl⟩ := done'.frame
  exact { h with lar := hlar, bitpos := by simp only [h.bitpos] }

/-- `LTSYN` makes the samples of its subframe live: the window it reads ends below them (R47, R111). -/
theorem ltsyn_alike {k : Fin 4} (h : LiveAlike (120 + 40 * k.val) s s') (lag : Nat) (g : BitVec 16) :
    LiveAlike (160 + 40 * k.val) (s.ltsyn k lag g) (s'.ltsyn k lag g) := by
  have hexc : ∀ a : Fin 280, a.val < 160 + 40 * k.val →
      (s.ltsyn k lag g).excAt a = (s'.ltsyn k lag g).excAt a := by
    intro a ha
    have hlo := le_clampLag lag
    rw [ltsyn_excAt, ltsyn_excAt]
    by_cases hin : 120 + 40 * k.val ≤ a.val
    · rw [dif_pos ⟨hin, ha⟩, dif_pos ⟨hin, ha⟩, h.exc _ (by simp only; omega)]
    · rw [dif_neg (by omega), dif_neg (by omega), h.exc a (by omega)]
  obtain ⟨e, he⟩ := ltsyn_frame s k lag g
  obtain ⟨e', he'⟩ := ltsyn_frame s' k lag g
  rw [he, he'] at hexc ⊢
  exact { h with exc := hexc }

/-- `APCMADD` adds the same pulses to the samples of a live subframe (R116). -/
theorem apcmadd_alike {k : Fin 4} {o : BitVec 2} (h : LiveAlike (160 + 40 * k.val) s s')
    (room : s.bitpos + 6 + pulseBits s.cfgMode k 13 ≤ payloadBits s.cfgMode)
    (hu : s.apcmadd k o = some u) (hu' : s'.apcmadd k o = some u') :
    LiveAlike (160 + 40 * k.val) u u' := by
  obtain ⟨m, hm, done⟩ := apcmadd_eq_some hu
  obtain ⟨m', hm', done'⟩ := apcmadd_eq_some hu'
  rw [← h.bitpos, ← h.readBits_eq (by omega)] at hm'
  obtain rfl := Option.some.inj (hm.symm.trans hm')
  have hexc : ∀ a : Fin 280, a.val < 160 + 40 * k.val → u.excAt a = u'.excAt a := by
    intro a ha
    by_cases hpulse : ∃ j, ∃ hj : j < 13, a = pulsePos k o j hj
    · obtain ⟨j, hj, rfl⟩ := hpulse
      obtain ⟨x, hx, hval⟩ := done.pulse j hj hj
      obtain ⟨x', hx', hval'⟩ := done'.pulse j hj hj
      have hbits := pulseBits_mono s.cfgMode k (Nat.succ_le_of_lt hj)
      rw [pulseBits_succ _ _ hj] at hbits
      simp only [← h.bitpos, ← h.cfgMode] at hx' hval'
      rw [← h.readBits_eq (by omega)] at hx'
      obtain rfl := Option.some.inj (hx.symm.trans hx')
      have hold := h.exc (pulsePos k o j hj) ha
      rw [hval, hval']
      simp only [State.excAt, State.dequant, h.params] at hold ⊢
      rw [hold]
    · have hne : ∀ j (hj : j < 13), j < 13 → a ≠ pulsePos k o j hj := fun j hj _ e => hpulse ⟨j, hj, e⟩
      rw [done.rest a hne, done'.rest a hne]
      exact h.exc a ha
  obtain ⟨e, rfl⟩ := done.frame
  obtain ⟨e', rfl⟩ := done'.frame
  exact { h with exc := hexc, bitpos := by simp only [h.bitpos, h.cfgMode] }

/-- `GetBits` advances the cursor and keeps the mode. -/
theorem getBits_cursor {width x : Nat} (hu : s.getBits width = some (x, u)) :
    u.bitpos = s.bitpos + width ∧ u.cfgMode = s.cfgMode := by
  obtain ⟨-, rfl⟩ := getBits_eq_some.mp hu
  exact ⟨rfl, rfl⟩

/-- `LTSYN` keeps the cursor and the mode. -/
theorem ltsyn_cursor (s : State) (k : Fin 4) (lag : Nat) (g : BitVec 16) :
    (s.ltsyn k lag g).bitpos = s.bitpos ∧ (s.ltsyn k lag g).cfgMode = s.cfgMode := by
  obtain ⟨e, he⟩ := ltsyn_frame s k lag g
  rw [he]
  exact ⟨rfl, rfl⟩

/-- One subframe of step 2: forty more samples are live (R129). -/
theorem subframe_alike {k : Fin 4} (h : LiveAlike (120 + 40 * k.val) s s')
    (room : s.bitpos + subframeBits s.cfgMode k ≤ payloadBits s.cfgMode)
    (hu : s.subframe k = some u) (hu' : s'.subframe k = some u') :
    LiveAlike (160 + 40 * k.val) u u' := by
  unfold subframeBits at room
  simp only [State.subframe, Option.bind_eq_some_iff, Prod.exists] at hu hu'
  obtain ⟨lag, s1, h1, gi, s2, h2, off, s3, h3, hu⟩ := hu
  obtain ⟨lag', s1', h1', gi', s2', h2', off', s3', h3', hu'⟩ := hu'
  obtain ⟨b1, m1⟩ := getBits_cursor h1
  obtain ⟨b2, m2⟩ := getBits_cursor h2
  obtain ⟨b3, m3⟩ := getBits_cursor h3
  obtain ⟨rfl, a1⟩ := getBits_alike h (by omega) h1 h1'
  obtain ⟨rfl, a2⟩ := getBits_alike a1 (by rw [b1, m1]; omega) h2 h2'
  obtain ⟨rfl, a3⟩ := getBits_alike a2 (by rw [b2, b1, m2, m1]; omega) h3 h3'
  have hgain : s3'.gain gi = s3.gain gi := by simp only [State.gain, a3.params]
  rw [hgain] at hu'
  obtain ⟨b4, m4⟩ := ltsyn_cursor s3 k lag (s3.gain gi)
  refine apcmadd_alike (ltsyn_alike a3 lag (s3.gain gi)) ?_ hu hu'
  rw [b4, m4, b3, b2, b1, m3, m2, m1]
  omega

/-- Step 2: with its four subframes done all of `EXC` is live. -/
theorem subframes_alike (h : LiveAlike 120 s s')
    (room : s.bitpos + subframesBits s.cfgMode 4 ≤ payloadBits s.cfgMode)
    (hu : forUpM 4 (fun k hk (t : State) => t.subframe ⟨k, hk⟩) s = some u)
    (hu' : forUpM 4 (fun k hk (t : State) => t.subframe ⟨k, hk⟩) s' = some u') : LiveAlike 280 u u' := by
  have key := forUpM_related_some (fun k t t' => LiveAlike (120 + 40 * k) t t' ∧
    ∃ e, t = { s with exc := e, bitpos := s.bitpos + subframesBits s.cfgMode k }) 4 _ _ hu hu'
    ⟨h, s.exc, rfl⟩ ?_
  · exact key.1
  · rintro k hk t t1 t' t1' ⟨halike, e, rfl⟩ h1 h1'
    have hbits := subframesBits_mono s.cfgMode (Nat.succ_le_of_lt hk)
    rw [subframesBits_succ _ hk] at hbits
    have hnext := subframe_alike (k := ⟨k, hk⟩) halike (by simp only; omega) h1 h1'
    obtain ⟨e', rfl⟩ := subframe_frame h1
    exact ⟨(show 120 + 40 * (k + 1) = 160 + 40 * k by omega) ▸ hnext, e',
      by rw [subframesBits_succ _ hk, ← Nat.add_assoc]⟩

/-- Step 3: with all of `EXC` live, `HISTSHIFT` leaves the same samples (R130). -/
theorem histshift_exc_congr (h : s.exc = s'.exc) : s.histshift.exc = s'.histshift.exc := by
  refine exc_ext fun a => ?_
  rw [histshift_excAt, histshift_excAt]
  simp only [State.excAt, h]

/-- A descending loop depends on its start only through what the first iteration makes of it. -/
theorem forDown_congr_first {σ : Type} {n : Nat} {body : (i : Nat) → i < n + 1 → σ → σ} {a b : σ}
    (h : body n (Nat.lt_succ_self n) a = body n (Nat.lt_succ_self n) b) :
    forDown (n + 1) body a = forDown (n + 1) body b := by
  rw [forDown_succ, forDown_succ, h]

/-- `V[8]` does not matter to a lattice step: stage 7, the first, writes it and no stage reads it (R102). -/
theorem lattice_set_eight (rrp : Vector Word 8) (v : Vector Word 9) (w : Word) (x : Int) :
    lattice rrp (v.set 8 w) x = lattice rrp v x := by
  have hfirst : latticeStage rrp 7 (x, v.set 8 w) = latticeStage rrp 7 (x, v) := by
    simp [latticeStage]
  simp only [lattice, forDown_congr_first (body := fun i h => latticeStage rrp ⟨i, h⟩) hfirst]

/-- A lattice memory is itself with `V[8]` written back. -/
theorem eq_set_eight (v : Vector Word 9) : v = v.set 8 v[8] :=
  (Vector.set_getElem_self (by decide)).symm

/-- The coefficients in force at a sample: where none are due those before it, at sample 0 only the LAR
values matter (R103). -/
theorem blendIfDue_rrp_congr {i : Nat} (hlar : s.lar = s'.lar) (hslot : s.larSlot = s'.larSlot)
    (hrrp : 0 < i → s.rrp = s'.rrp) : (s.blendIfDue i).rrp = (s'.blendIfDue i).rrp := by
  unfold State.blendIfDue
  cases hdue : rangeStartingAt i with
  | none =>
    refine hrrp (Nat.pos_of_ne_zero ?_)
    rintro rfl
    cases hdue
  | some r =>
    have hcoeff : s.coefficient r = s'.coefficient r := by
      funext j
      simp only [State.coefficient, State.larAt, hlar, hslot]
    simp only [larblend_eq, hcoeff]

/-- Two states in `STSYN` before sample i: what sample i and the later ones read is the same, and so are the
outputs before it. -/
structure SynthAlike (i : Nat) (s s' : State) : Prop where
  lar     : s.lar = s'.lar
  larSlot : s.larSlot = s'.larSlot
  exc     : s.exc = s'.exc
  v       : ∃ w, s'.v = s.v.set 8 w
  vDone   : 0 < i → s.v = s'.v
  rrp     : 0 < i → s.rrp = s'.rrp
  pcm     : ∀ j : Fin 160, j.val < i → s.pcmAt j = s'.pcmAt j

/-- One sample of `STSYN` (R103). -/
theorem SynthAlike.next {i : Fin 160} (h : SynthAlike i s s') :
    SynthAlike (i + 1) (synthSample i s) (synthSample i s') := by
  have hrrp := blendIfDue_rrp_congr h.lar h.larSlot h.rrp
  obtain ⟨q, hq⟩ := blendIfDue_frame s i
  obtain ⟨q', hq'⟩ := blendIfDue_frame s' i
  obtain ⟨w, hw⟩ := h.v
  rw [hq, hq'] at hrrp
  obtain rfl : q = q' := hrrp
  have hstep : lattice q s'.v = lattice q s.v := by
    funext x
    rw [hw, lattice_set_eight]
  simp only [synthSample, State.latstep, hq, hq', hstep, State.excAt, h.exc]
  refine ⟨h.lar, h.larSlot, rfl, ⟨_, eq_set_eight _⟩, fun _ => rfl, fun _ => rfl, fun j hj => ?_⟩
  rw [pcmAt_setPcm, pcmAt_setPcm]
  by_cases hij : i = j
  · rw [if_pos hij, if_pos hij]
  · rw [if_neg hij, if_neg hij]
    exact h.pcm j (by omega)

/-- `STSYN` from states alike: the same lattice memory and the same output block (R103). -/
theorem stsyn_alike (h : SynthAlike 0 s s') : SynthAlike 160 s.stsyn s'.stsyn :=
  forUp_related_at SynthAlike 160 _ _ s s' h fun i hi _ _ => SynthAlike.next (i := ⟨i, hi⟩)

/-- The accumulator of `DEEMPH` depends on its first value and the block (R120). -/
theorem msrBefore_congr (hmsr : s.msr = s'.msr) (hpcm : s.pcm = s'.pcm) (i : Nat) :
    msrBefore s i = msrBefore s' i := by
  induction i with
  | zero => simp only [msrBefore, hmsr]
  | succ i ih => simp only [msrBefore, ih, State.pcmAt, hpcm]

/-- Step 5: from the same accumulator and block, `DEEMPH` leaves the same (R120). -/
theorem deemph_congr (hmsr : s.msr = s'.msr) (hpcm : s.pcm = s'.pcm) :
    s.deemph.msr = s'.deemph.msr ∧ s.deemph.pcm = s'.deemph.pcm := by
  obtain ⟨⟨o, ho⟩, hout⟩ := deemph_spec s
  obtain ⟨⟨o', ho'⟩, hout'⟩ := deemph_spec s'
  constructor
  · rw [ho, ho', msrBefore_congr hmsr hpcm]
  · exact pcm_ext fun i => by rw [hout, hout', msrBefore_congr hmsr hpcm]

/-- Steps 3 to 6: from states alike with all of `EXC` live, the same decoder state and samples (R126). -/
theorem finishFrame_alike (h : LiveAlike 280 s s') :
    SameDecoderState s.finishFrame s'.finishFrame ∧ s.finishFrame.pcm = s'.finishFrame.pcm := by
  have hexc := histshift_exc_congr (exc_ext fun a => h.exc a a.isLt)
  obtain ⟨e, he⟩ := histshift_frame s
  obtain ⟨e', he'⟩ := histshift_frame s'
  simp only [State.finishFrame, he, he'] at hexc ⊢
  have hsynth := stsyn_alike (s := { s with exc := e }) (s' := { s' with exc := e' })
    ⟨h.lar, h.larSlot, hexc, h.v, nofun, nofun, nofun⟩
  obtain ⟨w, q, o, hs⟩ := stsyn_frame { s with exc := e }
  obtain ⟨w', q', o', hs'⟩ := stsyn_frame { s' with exc := e' }
  rw [hs, hs'] at hsynth ⊢
  have hpost := deemph_congr (s := { s with exc := e, v := w, rrp := q, pcm := o })
    (s' := { s' with exc := e', v := w', rrp := q', pcm := o' }) h.msr (pcm_ext fun i => hsynth.pcm i i.isLt)
  obtain ⟨⟨p, hd⟩, -⟩ := deemph_spec { s with exc := e, v := w, rrp := q, pcm := o }
  obtain ⟨⟨p', hd'⟩, -⟩ := deemph_spec { s' with exc := e', v := w', rrp := q', pcm := o' }
  rw [hd, hd'] at hpost ⊢
  exact ⟨⟨h.fsm, h.cfgMode, h.lar, congrArg otherSlot h.larSlot, hsynth.vDone (by decide), hexc, hpost.1⟩,
    hpost.2⟩

/-- The six steps from the start of the payload: states alike end in the same decoder state with the same
samples (R32). -/
theorem decodeSteps_alike (h : LiveAlike 120 s s') (start : s.bitpos = 0) (hu : s.decodeSteps = some u)
    (hu' : s'.decodeSteps = some u') : SameDecoderState u u' ∧ u.pcm = u'.pcm := by
  obtain ⟨s1, h1, hu⟩ := Option.bind_eq_some_iff.mp hu
  obtain ⟨s2, h2, rfl⟩ := Option.map_eq_some_iff.mp hu
  obtain ⟨s1', h1', hu'⟩ := Option.bind_eq_some_iff.mp hu'
  obtain ⟨s2', h2', rfl⟩ := Option.map_eq_some_iff.mp hu'
  have hbits := payloadBits_eq_subframes s.cfgMode
  have a1 := lardec_alike h (by omega) h1 h1'
  obtain ⟨l, rfl⟩ := (lardec_eq_some h1).frame
  exact finishFrame_alike (subframes_alike a1 (by simp only [larBits_eight]; omega) h2 h2')

/-- In Ready a long enough `DECODE_FRAME` runs the six steps and ends the frame (R125). -/
theorem exec_decodeFrame_of_longEnough {frame : List Byte} (hfsm : s.fsm = .ready)
    (hlen : longEnough s frame) :
    ∃ u, (s.startFrame frame).decodeSteps = some u ∧ exec (.decodeFrame frame) s = .next u.endFrame := by
  obtain ⟨hf, -⟩ | ⟨hf, -⟩ | ⟨-, hshort, -⟩ | ⟨-, -, hdone⟩ := execDecodeFrame_cases frame s
  · cases hfsm.symm.trans hf
  · cases hfsm.symm.trans hf
  · exact absurd hshort (Nat.not_lt.mpr hlen)
  · exact hdone

/-- What `endFrame` leaves is the decoder state with `FSM` in Ready, so its equality is kept. -/
theorem SameDecoderState.endFrame (h : SameDecoderState u u') : SameDecoderState u.endFrame u'.endFrame := by
  obtain ⟨-, hmode, hlar, hslot, hv, hexc, hmsr⟩ := h
  exact ⟨rfl, hmode, hlar, hslot, hv, hexc, hmsr⟩

/-- All a completed decode leaves: the decoder state, the samples, the ports it does not write, and free
values drawn with the counter (R27, R125). -/
theorem endFrame_eq (same : SameDecoderState u u') (hpcm : u.pcm = u'.pcm) (hin : u.inputs = u'.inputs)
    (hparams : u.params = u'.params) (hfree : u.freeCount = u'.freeCount) : u.endFrame = u'.endFrame := by
  obtain ⟨-, hmode, hlar, hslot, hv, hexc, hmsr⟩ := same
  simp only [State.endFrame, State.discardWork, State.respond, hmode, hlar, hslot, hv, hexc, hmsr, hpcm, hin,
    hparams, hfree]

/-- Two decodes whose first steps start from states alike both complete, with the same decoder state,
samples and response, and in one and the same state where the inputs still to come and the free values
agree. -/
theorem exec_decodeFrame_alike {f g : List Byte} (h : LiveAlike 120 (s.startFrame f) (s'.startFrame g))
    (hfsm : s.fsm = .ready) (hfsm' : s'.fsm = .ready) (hlen : longEnough s f) (hlen' : longEnough s' g) :
    ∃ t t', exec (.decodeFrame f) s = .next t ∧ exec (.decodeFrame g) s' = .next t' ∧
      SameDecoderState t t' ∧ t.pcm = t'.pcm ∧ t.resp = t'.resp ∧
      (s.inputs = s'.inputs → s.freeCount = s'.freeCount → t = t') := by
  obtain ⟨u, hu, he⟩ := exec_decodeFrame_of_longEnough hfsm hlen
  obtain ⟨u', hu', he'⟩ := exec_decodeFrame_of_longEnough hfsm' hlen'
  obtain ⟨hsame, hpcm⟩ := decodeSteps_alike h rfl hu hu'
  refine ⟨_, _, he, he', hsame.endFrame, hpcm, rfl, fun hin hfree => ?_⟩
  obtain ⟨l, e, w, q, o, m, rfl⟩ := decodeSteps_frame hu
  obtain ⟨l', e', w', q', o', m', rfl⟩ := decodeSteps_frame hu'
  exact endFrame_eq hsame hpcm hin h.params hfree

/-- Decodes that start alike, with the same inputs still to come and the same free values, have exactly one
outcome. -/
theorem exec_decodeFrame_eq_of_alike {f g : List Byte}
    (h : LiveAlike 120 (s.startFrame f) (s'.startFrame g)) (hfsm : s.fsm = .ready) (hfsm' : s'.fsm = .ready)
    (hlen : longEnough s f) (hlen' : longEnough s' g) (hin : s.inputs = s'.inputs)
    (hfree : s.freeCount = s'.freeCount) :
    ∃ t, exec (.decodeFrame f) s = .next t ∧ exec (.decodeFrame g) s' = .next t := by
  obtain ⟨t, t', he, he', -, -, -, heq⟩ := exec_decodeFrame_alike h hfsm hfsm' hlen hlen'
  exact ⟨t, he, heq hin hfree ▸ he'⟩

/-- States with the same decoder state and tables start alike on inputs with the same payload. -/
theorem startFrame_alike {f g : List Byte} (same : SameDecoderState s s') (hparams : s.params = s'.params)
    (hbits : samePayload s f g) : LiveAlike 120 (s.startFrame f) (s'.startFrame g) := by
  obtain ⟨-, hmode, hlar, hslot, hv, hexc, hmsr⟩ := same
  exact ⟨rfl, hmode, hparams, hlar, hslot, hmsr, rfl, ⟨s.v[8], hv.symm.trans (eq_set_eight s.v)⟩,
    fun a _ => by simp only [State.excAt, State.startFrame_exc, hexc], hbits⟩

/-- Settles O34: both decodes start alike, the payload bits among what is the same. -/
theorem decodeIsAPureFunction : Obligations.DecodeIsAPureFunction := by
  intro f g s s' same hparams hfsm hf hg hbits
  have hstart := startFrame_alike same hparams hbits
  obtain ⟨hfsm', hmode, -⟩ := same
  have hg' : longEnough s' g := by
    unfold longEnough at hg ⊢
    rwa [← hparams, ← hmode]
  obtain ⟨t, t', he, he', hsame, hpcm, hresp, -⟩ :=
    exec_decodeFrame_alike hstart hfsm (hfsm'.symm.trans hfsm) hf hg'
  exact ⟨t, t', he, he', hsame, hpcm, hresp⟩

/-- Settles O36: the two decodes start alike, since `V[8]`, `EXC[120..279]` and the working state are not
live there, and everything else is the same in both. -/
theorem deadStateCannotMatter : Obligations.DeadStateCannotMatter := by
  intro frame l s w e q b p r o hfsm hlen hhist
  refine exec_decodeFrame_eq_of_alike ?_ hfsm hfsm hlen hlen rfl rfl
  exact ⟨rfl, rfl, rfl, rfl, rfl, rfl, rfl, ⟨w, rfl⟩,
    fun a ha => congrArg BitVec.toInt (hhist ⟨a, ha⟩).symm, fun _ _ _ => rfl⟩

end Sys2Proof.Machine

/-! Waiting, reading frame bits and the carried history (20_memory.md). -/

namespace Sys2Proof

/-- Bit by bit, what the reader gives: frame bit `p + t` is bit `n - 1 - t` of the integer, so the first bit
read is the most significant (R41, R62). -/
theorem frameBit_of_readBits {bytes : List Byte} {p n v : Nat} (h : readBits bytes p n = some v) {t : Nat}
    (ht : t < n) : frameBit bytes (p + t) = some (v.testBit (n - 1 - t)) := by
  induction n generalizing v with
  | zero => exact absurd ht (Nat.not_lt_zero t)
  | succ n ih =>
    simp only [readBits, Option.bind_eq_some_iff, Option.map_eq_some_iff] at h
    obtain ⟨u, hu, b, hb, rfl⟩ := h
    rw [← Nat.bit_val]
    obtain rfl | hlt := Nat.eq_or_lt_of_le (Nat.le_of_lt_succ ht)
    · rw [hb, show t + 1 - 1 - t = 0 by omega, Nat.testBit_bit_zero]
    · rw [ih hu hlt, show n + 1 - 1 - t = n - 1 - t + 1 by omega, Nat.testBit_bit_succ]

end Sys2Proof

namespace Sys2Proof.Machine

open Sys2Proof.Rules

/-- `GETBITS` where the reader has the bits (R62). -/
theorem exec_getBits_of_readBits {s : State} {n v : Nat} (h : readBits s.frameIn (cursor s) n = some v) :
    exec (.getBits n) s = .next { s with ret := v, bitpos := s.bitpos + n } := by
  have hget : s.getBits n = some (v, { s with bitpos := s.bitpos + n }) := getBits_eq_some.mpr ⟨h, rfl⟩
  rw [exec, execGetBits, hget]

/-- Settles O5: the bits left give a value, and each of its bits is one frame bit. -/
theorem getBitsReadsMostSignificantFirst : Obligations.GetBitsReadsMostSignificantFirst := by
  intro s n room
  obtain ⟨v, hv, hlt⟩ := exists_readBits room
  refine ⟨v, hlt, exec_getBits_of_readBits hv, fun t ht => ?_⟩
  obtain ⟨b, hb, hbit⟩ := Option.map_eq_some_iff.mp (frameBit_of_readBits hv ht)
  exact ⟨b, hb, hbit.symm⟩

/-- After `HISTSHIFT` the carried region and the tail it was copied from agree (R46, R130). -/
theorem histshift_exc_carried (s : State) (a : Fin 120) :
    s.histshift.exc[a.val] = s.histshift.exc[160 + a.val] := by
  refine BitVec.eq_of_toInt_eq ?_
  calc s.histshift.excAt ⟨a.val, by omega⟩
      _ = s.excAt ⟨160 + a.val, by omega⟩ := by rw [histshift_excAt, dif_pos a.isLt]
      _ = s.histshift.excAt ⟨160 + a.val, by omega⟩ := by
        rw [histshift_excAt, dif_neg (by simp only; omega)]

/-- Steps 4 to 6 leave `EXC` as step 3 leaves it (R126). -/
theorem finishFrame_exc (s : State) : s.finishFrame.exc = s.histshift.exc := by
  obtain ⟨w, q, o, hs⟩ := stsyn_frame s.histshift
  obtain ⟨⟨p, hd⟩, -⟩ := deemph_spec s.histshift.stsyn
  rw [State.finishFrame, State.lartoggle_exc, hd, hs]

/-- The end of a frame keeps `EXC` (R27). -/
theorem endFrame_exc (s : State) : s.endFrame.exc = s.exc := rfl

/-- Settles O33: step 3 is the last of the six that writes `EXC`, and the end of the frame keeps it. -/
theorem decodeCarriesTheHistoryTail : Obligations.DecodeCarriesTheHistoryTail := by
  intro frame s hfsm hlen
  obtain ⟨u, hu, he⟩ := exec_decodeFrame_of_longEnough hfsm hlen
  obtain ⟨s1, -, hfin⟩ := Option.bind_eq_some_iff.mp hu
  obtain ⟨s2, -, rfl⟩ := Option.map_eq_some_iff.mp hfin
  have hexc : s2.finishFrame.endFrame.exc = s2.histshift.exc :=
    (endFrame_exc _).trans (finishFrame_exc s2)
  exact ⟨_, he, fun a => by simp only [hexc, histshift_exc_carried s2 a]⟩

/-- R151: with nothing to accept a step waits. -/
theorem step_of_no_input {s : State} (hin : s.inputs = []) : step s = .next s := by
  simp only [step, State.fetch, hin]

/-- R50: a command presented while one is in progress stays where it is (log entry 10). -/
theorem step_of_command_in_progress {s : State} {r : Request} {rest : List Input}
    (hin : s.inputs = .command r :: rest) (hfsm : s.fsm = .decoding) : step s = .next s := by
  simp only [step, State.fetch, hin, if_pos hfsm]

/-- R50: the meaning of a command of the port changes nothing while one is in progress (log entry 10). -/
theorem exec_decode_in_progress {s : State} (hfsm : s.fsm = .decoding) (r : Request) :
    exec (decode r) s = .next s := by
  cases hcmd : r.cmd with
  | decodeFrame => simp only [decode, hcmd, exec, execDecodeFrame, hfsm]
  | sessionOpen => simp only [decode, hcmd, exec, execSessionOpen, hfsm]
  | sessionClose => simp only [decode, hcmd, exec, execSessionClose, hfsm]

/-- Settles O46: what a step finds to accept, and each of the three commands while one is in progress. -/
theorem waitingPreservesAllState : Obligations.WaitingPreservesAllState :=
  fun _ => ⟨step_of_no_input, fun _ _ hfsm hin => step_of_command_in_progress hin hfsm,
    fun hfsm => ⟨fun frame => exec_decode_in_progress hfsm ⟨.decodeFrame, .fr, frame⟩,
      fun mode => exec_decode_in_progress hfsm ⟨.sessionOpen, mode, []⟩,
      exec_decode_in_progress hfsm ⟨.sessionClose, .fr, []⟩⟩⟩

end Sys2Proof.Machine

/-! The layout and the reader over it: how many bits a mode takes, and what a list of fields reads
(R60, R63 to R66). -/

namespace Sys2Proof

/-- The eight LAR indices take 36 bits (R63). -/
theorem sum_larWidths : ((List.finRange 8).map larWidth).sum = 36 := by decide

/-- The fields of one subframe record take 17 bits and the residual widths (R64, R66). -/
theorem sum_subWidths (m : Mode) (k : Fin 4) :
    (subWidths m k).sum = 17 + ((List.finRange 13).map fun j => (apcmBits m k j).val).sum := by
  simp only [subWidths, List.sum_append]
  rfl

/-- `PAYLOAD_BITS` is the sum of the widths of all payload fields (R66). -/
theorem payloadBits_eq_sum_payloadWidths (m : Mode) : payloadBits m = (payloadWidths m).sum := by
  simp only [payloadBits, payloadWidths, List.sum_append, sum_larWidths, List.flatMap_def,
    List.sum_flatten, List.map_map, Function.comp_def, sum_subWidths]

/-- The bits of a frame: the padding, then the payload (R60). -/
theorem sum_fieldWidths (p : PadLead) (m : Mode) : (fieldWidths p m).sum = p.bits + payloadBits m := by
  rw [fieldWidths, List.sum_cons, payloadBits_eq_sum_payloadWidths]

/-- A read that succeeds ends within the input (R61). -/
theorem readBits_room {bytes : List Byte} {p n v : Nat} (h : readBits bytes p n = some v)
    (start : p ≤ 8 * bytes.length) : p + n ≤ 8 * bytes.length := by
  by_contra short
  rw [readBits_eq_none (by omega) (by omega)] at h
  cases h

/-- Fields read one after another, taken apart (R43). -/
theorem readFields_cons_eq_some {bytes : List Byte} {p w : Nat} {ws l : List Nat} :
    readFields bytes p (w :: ws) = some l ↔
      ∃ v vs, readBits bytes p w = some v ∧ readFields bytes (p + w) ws = some vs ∧ l = v :: vs := by
  simp only [readFields, Option.bind_eq_some_iff, Option.map_eq_some_iff]
  constructor
  · rintro ⟨v, hv, vs, hvs, rfl⟩
    exact ⟨v, vs, hv, hvs, rfl⟩
  · rintro ⟨v, vs, hv, hvs, rfl⟩
    exact ⟨v, hv, vs, hvs, rfl⟩

/-- Enough bits: the fields are read (R61). -/
theorem exists_readFields {bytes : List Byte} {p : Nat} {ws : List Nat}
    (room : p + ws.sum ≤ 8 * bytes.length) : ∃ vs, readFields bytes p ws = some vs := by
  induction ws generalizing p with
  | nil => exact ⟨[], rfl⟩
  | cons w ws ih =>
    rw [List.sum_cons] at room
    obtain ⟨v, hv, -⟩ := exists_readBits (bytes := bytes) (p := p) (n := w) (by omega)
    obtain ⟨vs, hvs⟩ := ih (p := p + w) (by omega)
    exact ⟨v :: vs, readFields_cons_eq_some.mpr ⟨v, vs, hv, hvs, rfl⟩⟩

/-- Fields that are read end within the input (R61). -/
theorem readFields_room {bytes : List Byte} {p : Nat} {ws vs : List Nat}
    (h : readFields bytes p ws = some vs) (start : p ≤ 8 * bytes.length) :
    p + ws.sum ≤ 8 * bytes.length := by
  induction ws generalizing p vs with
  | nil => exact start
  | cons w ws ih =>
    obtain ⟨v, vs, hv, hvs, -⟩ := readFields_cons_eq_some.mp h
    have := ih hvs (readBits_room hv start)
    rw [List.sum_cons]
    omega

/-- Where a field stands: after all the fields before it (R43). -/
theorem readBits_of_readFields {bytes : List Byte} {p : Nat} {ws vs : List Nat}
    (h : readFields bytes p ws = some vs) {i : Nat} (hi : i < ws.length) :
    readBits bytes (p + (ws.take i).sum) (ws.getD i 0) = some (vs.getD i 0) := by
  induction ws generalizing p vs i with
  | nil => exact absurd hi (Nat.not_lt_zero i)
  | cons w ws ih =>
    obtain ⟨v, vs, hv, hvs, rfl⟩ := readFields_cons_eq_some.mp h
    cases i with
    | zero => exact hv
    | succ i =>
      have := ih hvs (Nat.lt_of_succ_lt_succ hi)
      rwa [Nat.add_assoc] at this

/-- What it is for bytes to decode to a frame: their fields are read (R60). -/
theorem decodeFrame_eq_ok {p : PadLead} {m : Mode} {bytes : List Byte} {f : Frame} :
    decodeFrame p m bytes = .ok f ↔
      ∃ vs, readFields bytes 0 (fieldWidths p m) = some vs ∧ f = frameOfValues vs := by
  unfold decodeFrame
  cases readFields bytes 0 (fieldWidths p m) with
  | none => exact ⟨nofun, fun ⟨_, h, _⟩ => nomatch h⟩
  | some vs =>
    constructor
    · rintro ⟨⟩
      exact ⟨vs, rfl, rfl⟩
    · rintro ⟨_, ⟨⟩, rfl⟩
      rfl

end Sys2Proof

namespace Sys2Proof.Machine

open Sys2Proof.Rules

/-- The thirteen residual widths of a record, as R66's sum and as the reader meets them. -/
theorem residualBits_thirteen (m : Mode) (k : Fin 4) : residualBits m k 13 = pulseBits m k 13 :=
  (pulseBits_eq_sum m k).symm

/-- Settles O53: R66's formula is the model's own, and the widths add up to it. -/
theorem payloadLengthOfAMode : Obligations.PayloadLengthOfAMode :=
  ⟨fun m => ⟨payloadBits_eq_sum_payloadWidths m, rfl⟩, by decide⟩

/-- Settles O54: the reader gets through all fields exactly where their sum is within the input. -/
theorem onlyShortInputIsRefused : Obligations.OnlyShortInputIsRefused := by
  intro p m bytes
  rw [← sum_fieldWidths]
  constructor
  · intro short
    have hnone : readFields bytes 0 (fieldWidths p m) = none := by
      refine Option.eq_none_iff_forall_ne_some.mpr fun vs hvs => ?_
      have := readFields_room hvs (Nat.zero_le _)
      omega
    rw [decodeFrame, hnone]
  · intro room
    obtain ⟨vs, hvs⟩ := exists_readFields (p := 0) ((Nat.zero_add _).trans_le room)
    exact ⟨_, decodeFrame_eq_ok.mpr ⟨vs, hvs, rfl⟩⟩

end Sys2Proof.Machine

/-! Bits: what the reader reads is the bits of the fields, and packing puts each bit where the reader finds it
(R41, R62, R71). -/

namespace Sys2Proof

/-- The reader's value is the n-bit integer with the bits read, the first the most significant (R41, R62). -/
theorem readBits_eq_some {bytes : List Byte} {p n v : Nat} :
    readBits bytes p n = some v ↔
      v < 2 ^ n ∧ ∀ t < n, frameBit bytes (p + t) = some (v.testBit (n - 1 - t)) := by
  refine ⟨fun h => ⟨readBits_lt h, fun t ht => frameBit_of_readBits h ht⟩, ?_⟩
  rintro ⟨hlt, hbits⟩
  induction n generalizing v with
  | zero => rw [readBits, Nat.lt_one_iff.mp hlt]
  | succ n ih =>
    have hhigh : readBits bytes p n = some (v / 2) := by
      refine ih (by omega) fun t ht => ?_
      rw [hbits t (by omega), ← Nat.testBit_succ]
      congr 2
      omega
    have hlow : frameBit bytes (p + n) = some (v.testBit 0) := by
      rw [hbits n (Nat.lt_succ_self n), show n + 1 - 1 - n = 0 by omega]
    have hv : 2 * (v / 2) + (v.testBit 0).toNat = v := by
      rw [Nat.toNat_testBit, Nat.pow_zero, Nat.div_one]
      exact Nat.div_add_mod v 2
    simp only [readBits, hhigh, hlow, Option.bind_some, Option.map_some, hv]

@[simp] theorem length_bitsOf (n v : Nat) : (bitsOf n v).length = n := by
  induction n generalizing v with
  | zero => rfl
  | succ n ih => rw [bitsOf, List.length_append, ih, List.length_singleton]

/-- Bit by bit, what an n-bit field writes: the most significant bit first (R41). -/
theorem getElem?_bitsOf {n v t : Nat} (ht : t < n) : (bitsOf n v)[t]? = some (v.testBit (n - 1 - t)) := by
  induction n generalizing v with
  | zero => exact absurd ht (Nat.not_lt_zero t)
  | succ n ih =>
    rw [bitsOf]
    obtain rfl | hlt := Nat.eq_or_lt_of_le (Nat.le_of_lt_succ ht)
    · rw [List.getElem?_append_right (by simp), length_bitsOf]
      simp [Nat.testBit_zero, beq_eq_decide]
    · rw [List.getElem?_append_left (by simpa using hlt), ih hlt, ← Nat.testBit_succ]
      congr 2
      omega

/-- One more bit at the end is the new least significant bit. -/
theorem natOfBits_concat (l : List Bool) (b : Bool) : natOfBits (l ++ [b]) = Nat.bit b (natOfBits l) := by
  rw [natOfBits, List.foldl_append, Nat.bit_val]
  rfl

/-- Bit by bit, what a list of bits is as an integer: its first bit the most significant (R41). -/
theorem testBit_natOfBits {l : List Bool} {t : Nat} (ht : t < l.length) :
    (natOfBits l).testBit (l.length - 1 - t) = l.getD t false := by
  induction l using List.reverseRecOn with
  | nil => exact absurd ht (Nat.not_lt_zero t)
  | append_singleton l b ih =>
    rw [List.length_append, List.length_singleton] at ht ⊢
    rw [natOfBits_concat]
    obtain rfl | hlt := Nat.eq_or_lt_of_le (Nat.le_of_lt_succ ht)
    · rw [show l.length + 1 - 1 - l.length = 0 by omega, Nat.testBit_bit_zero]
      simp
    · rw [show l.length + 1 - 1 - t = l.length - 1 - t + 1 by omega, Nat.testBit_bit_succ, ih hlt,
        List.getD_append _ _ _ _ hlt]

/-- The number of bytes a list of bits fills (R71). -/
theorem length_packBytes (bits : List Bool) : (packBytes bits).length = (bits.length + 7) / 8 := by
  simp [packBytes]

/-- Packing puts bit q of the list at frame bit q (R41, R71). -/
theorem frameBit_packBytes {bits : List Bool} {q : Nat} (hq : q < bits.length) :
    frameBit (packBytes bits) q = bits[q]? := by
  have hbyte : q / 8 < (bits.length + 7) / 8 := by omega
  have hbit := testBit_natOfBits (l := (List.range 8).map fun j => bits.getD (8 * (q / 8) + j) false)
    (t := q % 8) (by simp; omega)
  simp only [List.length_map, List.length_range] at hbit
  rw [frameBit, packBytes, List.getElem?_map, List.getElem?_range hbyte, Option.map_some, Option.map_some,
    BitVec.getLsbD_ofNat, decide_eq_true (by omega), Bool.true_and, hbit,
    List.getElem?_eq_getElem hq]
  have : q % 8 < 8 := by omega
  simp [Nat.div_add_mod, hq, this]

/-- Inputs of the same length with the same frame bits are the same bytes (R41). -/
theorem bytes_ext {f g : List Byte} (hlen : f.length = g.length)
    (hbits : ∀ q < 8 * f.length, frameBit f q = frameBit g q) : f = g := by
  refine List.ext_getElem hlen fun i hf hg => BitVec.eq_of_getLsbD_eq fun j hj => ?_
  have := hbits (8 * i + (7 - j)) (by omega)
  rw [frameBit, frameBit, show (8 * i + (7 - j)) / 8 = i by omega,
    show 7 - (8 * i + (7 - j)) % 8 = j by omega, List.getElem?_eq_getElem hf,
    List.getElem?_eq_getElem hg] at this
  exact Option.some.inj this

/-- Each value fits its field (R60, R67). -/
abbrev FieldsFit (ws vs : List Nat) : Prop :=
  List.Forall₂ (fun w v => v < 2 ^ w) ws vs

/-- The bits of fields of the given widths, one after another (R71). -/
def fieldBits (ws vs : List Nat) : List Bool :=
  (ws.zip vs).flatMap fun wv => bitsOf wv.1 wv.2

/-- The bytes of a frame are the packed bits of its fields (R71). -/
theorem encodeFrame_eq_packBytes (p : PadLead) (m : Mode) (f : Frame) :
    encodeFrame p m f = packBytes (fieldBits (fieldWidths p m) f.values) := rfl

@[simp] theorem fieldBits_cons (w v : Nat) (ws vs : List Nat) :
    fieldBits (w :: ws) (v :: vs) = bitsOf w v ++ fieldBits ws vs := rfl

theorem length_fieldBits {ws vs : List Nat} (fit : FieldsFit ws vs) : (fieldBits ws vs).length = ws.sum := by
  induction fit with
  | nil => rfl
  | cons _ _ ih => rw [fieldBits_cons, List.length_append, length_bitsOf, ih, List.sum_cons]

/-- All that is read: fields are what the reader gives exactly where they fit and their bits are the input's
bits from there on (R60, R62). -/
theorem readFields_eq_some {bytes : List Byte} {p : Nat} {ws vs : List Nat} :
    readFields bytes p ws = some vs ↔
      FieldsFit ws vs ∧ ∀ q < ws.sum, frameBit bytes (p + q) = (fieldBits ws vs)[q]? := by
  induction ws generalizing p vs with
  | nil =>
    rw [readFields, FieldsFit, List.forall₂_nil_left_iff]
    exact ⟨fun h => ⟨(Option.some.inj h).symm, fun q hq => absurd hq (Nat.not_lt_zero q)⟩,
      fun h => congrArg some h.1.symm⟩
  | cons w ws ih =>
    rw [readFields_cons_eq_some]
    constructor
    · rintro ⟨v, vs, hv, hvs, rfl⟩
      obtain ⟨hlt, hbits⟩ := readBits_eq_some.mp hv
      obtain ⟨fit, hrest⟩ := ih.mp hvs
      refine ⟨.cons hlt fit, fun q hq => ?_⟩
      rw [List.sum_cons] at hq
      rw [fieldBits_cons]
      obtain hin | hout := Nat.lt_or_ge q w
      · rw [List.getElem?_append_left (by simpa using hin), getElem?_bitsOf hin, hbits q hin]
      · rw [List.getElem?_append_right (by simpa using hout), length_bitsOf, ← hrest (q - w) (by omega)]
        congr 1
        omega
    · rintro ⟨fit, hbits⟩
      obtain ⟨v, vs', hlt, fit', rfl⟩ := List.forall₂_cons_left_iff.mp fit
      rw [List.sum_cons] at hbits
      refine ⟨v, vs', readBits_eq_some.mpr ⟨hlt, fun t ht => ?_⟩, ih.mpr ⟨fit', fun q hq => ?_⟩,
        rfl⟩
      · rw [hbits t (by omega), fieldBits_cons, List.getElem?_append_left (by simpa using ht),
          getElem?_bitsOf ht]
      · rw [Nat.add_assoc, hbits (w + q) (by omega), fieldBits_cons,
          List.getElem?_append_right (by simp), length_bitsOf, Nat.add_sub_cancel_left]

/-- Fields that fit are read back from the bytes they are packed into (R71). -/
theorem readFields_packBytes {ws vs : List Nat} (fit : FieldsFit ws vs) :
    readFields (packBytes (fieldBits ws vs)) 0 ws = some vs := by
  refine readFields_eq_some.mpr ⟨fit, fun q hq => ?_⟩
  rw [Nat.zero_add, frameBit_packBytes (by rwa [length_fieldBits fit])]

/-- Where the fields fill the input, packing what was read gives the input again (R68). -/
theorem packBytes_of_readFields {bytes : List Byte} {ws vs : List Nat}
    (h : readFields bytes 0 ws = some vs) (full : ws.sum = 8 * bytes.length) :
    packBytes (fieldBits ws vs) = bytes := by
  obtain ⟨fit, hbits⟩ := readFields_eq_some.mp h
  have hlen := length_fieldBits fit
  refine bytes_ext (by rw [length_packBytes]; omega) fun q hq => ?_
  rw [length_packBytes] at hq
  rw [frameBit_packBytes (by omega), ← hbits q (by omega), Nat.zero_add]

end Sys2Proof

/-! The fields of a frame as a list of values, and back (R60, R63, R64); then the two round trips. -/

namespace Sys2Proof

/-- A vector's values in order. -/
theorem toList_eq_map_finRange {α : Type} {n : Nat} (v : Vector α n) :
    v.toList = (List.finRange n).map fun i => v[i] :=
  List.ext_getElem (by simp) fun i h _ => by simp

/-- A stretch of a list, read value by value. -/
theorem ofFn_getD {n a : Nat} {l : List Nat} (h : a + n ≤ l.length) :
    (List.ofFn fun i : Fin n => l.getD (a + i) 0) = (l.drop a).take n := by
  refine List.ext_getElem (by simp; omega) fun i hi _ => ?_
  rw [List.length_ofFn] at hi
  simp [List.getD_eq_getElem?_getD, List.getElem?_eq_getElem (show a + i < l.length by omega)]

/-- A value read behind a known stretch of a list. -/
theorem getD_append_toList {n i : Nat} (a r : List Nat) (v : Vector Nat n) (h : i < n) :
    (a ++ (v.toList ++ r)).getD (a.length + i) 0 = v[i] := by
  rw [List.getD_append_right _ _ _ _ (Nat.le_add_right _ _), Nat.add_sub_cancel_left,
    List.getD_append _ _ _ _ (by simpa using h), List.getD_eq_getElem _ _ (by simpa using h)]
  exact Vector.getElem_toList _

@[simp] theorem length_values (f : Subframe) : f.values.length = 17 := by
  simp [Subframe.values]

/-- A record read from its own values, whatever follows them. -/
theorem subframeOfValues_values_append (f : Subframe) (r : List Nat) :
    subframeOfValues (f.values ++ r) = f := by
  have hx : (Vector.ofFn fun j : Fin 13 => (f.values ++ r).getD (4 + j) 0) = f.x := by
    refine Vector.ext fun j hj => ?_
    rw [Vector.getElem_ofFn, Subframe.values, List.append_assoc]
    exact getD_append_toList [f.lag, f.gain, f.off, f.maxIdx] r f.x hj
  rw [subframeOfValues, hx]
  rfl

/-- A list of at least 17 values begins with those of the record read from it. -/
theorem values_subframeOfValues {l : List Nat} (h : 17 ≤ l.length) :
    (subframeOfValues l).values = l.take 17 := by
  have hhead : [l.getD 0 0, l.getD 1 0, l.getD 2 0, l.getD 3 0] = l.take 4 :=
    ofFn_getD (n := 4) (a := 0) (l := l) (by omega) |>.trans (by rw [List.drop_zero])
  have hx : (Vector.ofFn fun j : Fin 13 => l.getD (4 + j) 0).toList = (l.drop 4).take 13 := by
    rw [Vector.toList_ofFn, ofFn_getD (by omega)]
  rw [Subframe.values, subframeOfValues, hhead, hx, ← List.take_add]

/-- The values of records one after another, from record k on. -/
theorem drop_flatMap_values {l : List Subframe} {k : Nat} (h : k < l.length) :
    (l.flatMap Subframe.values).drop (17 * k) =
      l[k].values ++ (l.drop (k + 1)).flatMap Subframe.values := by
  induction l generalizing k with
  | nil => exact absurd h (Nat.not_lt_zero k)
  | cons f l ih =>
    cases k with
    | zero => rfl
    | succ k =>
      rw [List.flatMap_cons, show 17 * (k + 1) = f.values.length + 17 * k by rw [length_values]; omega,
        List.drop_length_add_append, ih (Nat.lt_of_succ_lt_succ h)]
      rfl

/-- The values of a frame from record k on: the padding and the LAR indices come before the records
(R60). -/
theorem drop_values {k : Nat} (f : Frame) (hk : k < 4) :
    f.values.drop (9 + 17 * k) =
      f.sub[k].values ++ (f.sub.toList.drop (k + 1)).flatMap Subframe.values := by
  have hhead : f.values.drop 9 = f.sub.toList.flatMap Subframe.values :=
    List.drop_left' (l₁ := f.pad :: f.larc.toList) (by simp)
  rw [← List.drop_drop, hhead, drop_flatMap_values (by simpa using hk), Vector.getElem_toList]

/-- A frame is read back from its own values. -/
theorem frameOfValues_values (f : Frame) : frameOfValues f.values = f := by
  have hlarc : (Vector.ofFn fun i : Fin 8 => f.values.getD (1 + i) 0) = f.larc := by
    refine Vector.ext fun i hi => ?_
    rw [Vector.getElem_ofFn]
    exact getD_append_toList [f.pad] _ f.larc hi
  have hsub : (Vector.ofFn fun k : Fin 4 => subframeOfValues (f.values.drop (9 + 17 * k))) = f.sub := by
    refine Vector.ext fun k hk => ?_
    rw [Vector.getElem_ofFn, drop_values f hk, subframeOfValues_values_append]
  rw [frameOfValues, hlarc, hsub]
  rfl

/-- A list of 77 values is the values of the frame read from it. -/
theorem values_frameOfValues {l : List Nat} (h : l.length = 77) : (frameOfValues l).values = l := by
  have hlarc : (frameOfValues l).larc.toList = (l.drop 1).take 8 := by
    rw [frameOfValues, Vector.toList_ofFn, ofFn_getD (by omega)]
  have hblock (a : Nat) (ha : a + 17 ≤ 77) (r : List Nat) (hr : r = l.drop (a + 17)) :
      (subframeOfValues (l.drop a)).values ++ r = l.drop a := by
    rw [values_subframeOfValues (by rw [List.length_drop]; omega), hr, ← List.drop_drop,
      List.take_append_drop]
  have hsub : (frameOfValues l).sub.toList.flatMap Subframe.values = l.drop 9 := by
    rw [frameOfValues, Vector.toList_ofFn]
    refine hblock 9 (by decide) _ (hblock 26 (by decide) _ (hblock 43 (by decide) _
      (hblock 60 (by decide) _ ?_)))
    rw [List.drop_of_length_le (by omega)]
    rfl
  have hpad : (frameOfValues l).pad :: l.drop 1 = l := by
    cases l with
    | nil => cases h
    | cons v l => rfl
  rw [Frame.values, hlarc, hsub, show l.drop 9 = (l.drop 1).drop 8 by rw [List.drop_drop],
    List.take_append_drop, hpad]

/-- Fields in two parts fit where the parts do. -/
theorem fieldsFit_append {ws ws' vs vs' : List Nat} (h : ws.length = vs.length) :
    FieldsFit (ws ++ ws') (vs ++ vs') ↔ FieldsFit ws vs ∧ FieldsFit ws' vs' := by
  refine ⟨fun fit => ⟨?_, ?_⟩, fun ⟨fit, fit'⟩ => List.rel_append fit fit'⟩
  · simpa [List.take_left' h] using List.forall₂_take_append _ _ _ fit
  · simpa [List.drop_left' h] using List.forall₂_drop_append _ _ _ fit

/-- Fields named along a list fit where each does. -/
theorem fieldsFit_map {α : Type} {l : List α} {f g : α → Nat} :
    FieldsFit (l.map f) (l.map g) ↔ ∀ a ∈ l, g a < 2 ^ f a := by
  rw [FieldsFit, List.forall₂_map_left_iff, List.forall₂_map_right_iff, List.forall₂_same]

/-- Fields in blocks of matching lengths fit where each block does. -/
theorem fieldsFit_flatMap {α : Type} {l : List α} {f g : α → List Nat}
    (h : ∀ a, (f a).length = (g a).length) :
    FieldsFit (l.flatMap f) (l.flatMap g) ↔ ∀ a ∈ l, FieldsFit (f a) (g a) := by
  induction l with
  | nil => simp
  | cons a l ih =>
    rw [List.flatMap_cons, List.flatMap_cons, fieldsFit_append (h a), ih, List.forall_mem_cons]

@[simp] theorem length_subWidths (m : Mode) (k : Fin 4) : (subWidths m k).length = 17 := by
  simp [subWidths]

/-- A record is well-formed where its values fit the widths of R64. -/
theorem subframe_wf_iff {m : Mode} {k : Fin 4} {f : Subframe} :
    f.wf m k = true ↔ FieldsFit (subWidths m k) f.values := by
  rw [subWidths, Subframe.values, fieldsFit_append (by rfl), toList_eq_map_finRange, fieldsFit_map]
  simp [Subframe.wf, FieldsFit, and_assoc]

/-- A frame is well-formed where its values fit the widths of its fields (R60, R63, R64). -/
theorem frame_wf_iff {p : PadLead} {m : Mode} {f : Frame} :
    f.wf p m = true ↔ FieldsFit (fieldWidths p m) f.values := by
  rw [fieldWidths, payloadWidths, Frame.values, toList_eq_map_finRange, toList_eq_map_finRange,
    List.flatMap_map, FieldsFit, List.forall₂_cons, ← FieldsFit, fieldsFit_append (by simp), fieldsFit_map,
    fieldsFit_flatMap (by simp)]
  simp [Frame.wf, subframe_wf_iff, and_assoc]

@[simp] theorem length_fieldWidths (p : PadLead) (m : Mode) : (fieldWidths p m).length = 77 := by
  simp [fieldWidths, payloadWidths, List.length_flatMap]

/-- The fields of a well-formed frame are read from its bytes (R60, R71). -/
theorem readFields_encodeFrame {p : PadLead} {m : Mode} {f : Frame} (h : f.wf p m = true) :
    readFields (encodeFrame p m f) 0 (fieldWidths p m) = some f.values := by
  rw [encodeFrame_eq_packBytes, readFields_packBytes (frame_wf_iff.mp h)]

/-- Bytes that decode to a frame hold its values, and the frame is well-formed (R67, R68). -/
theorem readFields_of_decodeFrame {p : PadLead} {m : Mode} {bytes : List Byte} {f : Frame}
    (h : decodeFrame p m bytes = .ok f) :
    readFields bytes 0 (fieldWidths p m) = some f.values ∧ f.wf p m = true := by
  obtain ⟨vs, hvs, rfl⟩ := decodeFrame_eq_ok.mp h
  have fit := (readFields_eq_some.mp hvs).1
  have hvalues : (frameOfValues vs).values = vs :=
    values_frameOfValues (by rw [← fit.length_eq, length_fieldWidths])
  rw [frame_wf_iff, hvalues]
  exact ⟨hvs, fit⟩

/-- The values of a frame by position: the LAR indices follow the padding (R60, R63). -/
theorem values_getD_larc (f : Frame) (i : Fin 8) : f.values.getD (1 + i) 0 = f.larc[i] :=
  getD_append_toList [f.pad] _ f.larc i.isLt

/-- The values of a frame by position: record k follows the padding, the LAR indices and the records before
it (R60, R64). -/
theorem values_getD_sub (f : Frame) (k : Fin 4) {j : Nat} (hj : j < 17) :
    f.values.getD (9 + 17 * k + j) 0 = f.sub[k].values.getD j 0 := by
  have hrecord : (f.values.drop (9 + 17 * k)).getD j 0 = f.sub[k].values.getD j 0 := by
    rw [drop_values f k.isLt, List.getD_append _ _ _ _ (by simpa using hj)]
    rfl
  simpa [List.getD_eq_getElem?_getD] using hrecord

end Sys2Proof

namespace Sys2Proof.Machine

/-- Settles O49: the values fit their fields, so the reader gives them back, and they make the frame. -/
theorem frameRoundTrip : Obligations.FrameRoundTrip :=
  fun _ _ f h => decodeFrame_eq_ok.mpr ⟨f.values, readFields_encodeFrame h, (frameOfValues_values f).symm⟩

/-- Settles O50: the 264 bits are exactly the padding and the payload, so what is read fills the bytes. -/
theorem everyPatternIsAFrame : Obligations.EveryPatternIsAFrame := by
  intro bytes hlen
  have hneed : PadLead.four.bits + payloadBits .fr = 8 * bytes.length := by rw [hlen]; decide
  obtain ⟨f, hf⟩ := (onlyShortInputIsRefused .four .fr bytes).2 hneed.le
  obtain ⟨hread, hwf⟩ := readFields_of_decodeFrame hf
  have hbytes : encodeFrame .four .fr f = bytes := by
    rw [encodeFrame_eq_packBytes, packBytes_of_readFields hread ((sum_fieldWidths _ _).trans hneed)]
  exact ⟨f, hf, hwf, hbytes⟩

end Sys2Proof.Machine

/-! Positions of the fields in the payload, and what of it reaches the LAR registers (R63, R65, R90). -/

namespace Sys2Proof.Machine

open Sys2Proof.Rules

/-- The width and the position of a LAR index among the fields of a frame, in every mode (R63). -/
theorem larc_position (p : PadLead) (m : Mode) (i : Fin 8) :
    (fieldWidths p m).getD (1 + i) 0 = (larRow i).width ∧
      ((fieldWidths p m).take (1 + i)).sum = p.bits + (larRow i).start := by
  fin_cases i <;> exact ⟨rfl, rfl⟩

/-- The width of field j of a record in `MODE_FR`: lag, gain, offset, index, then the residuals (R64, R65). -/
def recordWidth : Nat → Nat
  | 0 => 7
  | 1 => 2
  | 2 => 2
  | 3 => 6
  | _ + 4 => 3

/-- The bit of a `MODE_FR` record at which its field j starts (R64, R65). -/
def recordStart : Nat → Nat
  | 0 => 0
  | 1 => 7
  | 2 => 9
  | 3 => 11
  | j + 4 => 17 + 3 * j

/-- The width and the position of field j of record k among the fields of a `MODE_FR` frame (R64, R65). -/
theorem record_position (p : PadLead) : ∀ (k : Fin 4) (j : Fin 17),
    (fieldWidths p .fr).getD (9 + 17 * k + j) 0 = recordWidth j ∧
      ((fieldWidths p .fr).take (9 + 17 * k + j)).sum = p.bits + 36 + 56 * k + recordStart j := by
  cases p <;> decide

/-- Each LAR index of a frame stands at its payload bits, in every mode (R63). -/
theorem readBits_larc {p : PadLead} {m : Mode} {bytes : List Byte} {f : Frame}
    (h : readFields bytes 0 (fieldWidths p m) = some f.values) (i : Fin 8) :
    readBits bytes (p.bits + (larRow i).start) (larRow i).width = some f.larc[i] := by
  obtain ⟨hwidth, hstart⟩ := larc_position p m i
  have := readBits_of_readFields h (i := 1 + i) (by rw [length_fieldWidths]; omega)
  rwa [Nat.zero_add, hwidth, hstart, values_getD_larc] at this

/-- Field j of record k of a `MODE_FR` frame stands at its payload bits (R64, R65). -/
theorem readBits_record {p : PadLead} {bytes : List Byte} {f : Frame}
    (h : readFields bytes 0 (fieldWidths p .fr) = some f.values) (k : Fin 4) {j : Nat} (hj : j < 17) :
    readBits bytes (p.bits + 36 + 56 * k + recordStart j) (recordWidth j) =
      some (f.sub[k].values.getD j 0) := by
  obtain ⟨hwidth, hstart⟩ := record_position p k ⟨j, hj⟩
  have := readBits_of_readFields h (i := 9 + 17 * k + j) (by rw [length_fieldWidths]; omega)
  rwa [Nat.zero_add, hwidth, hstart, values_getD_sub f k hj] at this

/-- The residual fields of a record come after the four others (R64). -/
theorem values_getD_residual (f : Subframe) (j : Fin 13) : f.values.getD (j + 4) 0 = f.x[j] := by
  have := getD_append_toList [f.lag, f.gain, f.off, f.maxIdx] [] f.x j.isLt
  rwa [List.append_nil, Nat.add_comm] at this

/-- Settles O51: the fields are read one after another, so each stands behind those before it. -/
theorem fieldsStandAtTheirPositions : Obligations.FieldsStandAtTheirPositions := by
  intro p bytes room
  obtain ⟨f, hf⟩ := (onlyShortInputIsRefused p .fr bytes).2 room
  obtain ⟨hread, -⟩ := readFields_of_decodeFrame hf
  refine ⟨f, hf, readBits_of_readFields hread (i := 0) (by simp), readBits_larc hread, ?_⟩
  rintro k _ rfl
  refine ⟨readBits_record hread k (j := 0) (by decide), readBits_record hread k (j := 1) (by decide),
    readBits_record hread k (j := 2) (by decide), readBits_record hread k (j := 3) (by decide), fun j => ?_⟩
  simpa only [values_getD_residual, recordStart, recordWidth, Nat.add_assoc] using
    readBits_record hread k (j := j + 4) (by omega)

/-- R90's formula as the rules write it and as the model does. -/
theorem larValue_eq_larOf (i : Fin 8) (c : Nat) : larValue i c = larOf i c := by
  fin_cases i <;> simp [larValue, larOf, larRow, roundMul_def, shl, larOffset, larFactor, Int.mul_comm]

/-- The position and the width of a LAR index as the reader meets them (R63). -/
theorem larRow_eq : ∀ i : Fin 8, (larRow i).start = larBits i ∧ (larRow i).width = larWidth i := by
  decide

/-- A decode leaves in the slot `LAR_SLOT` named before it what `LARDEC` wrote there (R90, R128). -/
theorem decodeSteps_larAt {s u : State} (h : s.decodeSteps = some u) (i : Fin 8) :
    ∃ c, readBits s.frameIn (s.params.padLead.bits + (s.bitpos + (larRow i).start)) (larRow i).width =
        some c ∧
      (u.larAt s.larSlot i).toInt = larOf i c := by
  obtain ⟨s1, h1, hu⟩ := Option.bind_eq_some_iff.mp h
  obtain ⟨s2, h2, rfl⟩ := Option.map_eq_some_iff.mp hu
  obtain ⟨c, -, hc, hval⟩ := (lardec_eq_some h1).value i i.isLt i.isLt
  obtain ⟨hstart, hwidth⟩ := larRow_eq i
  have hkept : s2.finishFrame.lar = s1.lar := by
    obtain ⟨e, w, q, o, m, hf⟩ := finishFrame_frame s2
    obtain ⟨e', rfl⟩ := subframes_frame h2
    rw [hf]
  have hat : s2.finishFrame.larAt s.larSlot i = s1.larAt s.larSlot i := by
    simp only [State.larAt, hkept]
  rw [hstart, hwidth]
  exact ⟨c, hc, (congrArg BitVec.toInt hat).trans (hval.trans (larValue_eq_larOf i c))⟩

/-- The bytes of a well-formed frame are as long as its mode needs (R66, R71). -/
theorem encodeFrame_longEnough {s : State} {f : Frame} (h : f.wf s.params.padLead s.cfgMode = true) :
    longEnough s (encodeFrame s.params.padLead s.cfgMode f) := by
  have := readFields_room (readFields_encodeFrame h) (Nat.zero_le _)
  rwa [Nat.zero_add, sum_fieldWidths] at this

/-- Settles O55: `LARDEC` reads each index where the encoder put it, and no later step writes `LAR`. -/
theorem encodedLarsReachTheRegisters : Obligations.EncodedLarsReachTheRegisters := by
  intro s f hfsm hwf
  obtain ⟨u, hu, he⟩ := exec_decodeFrame_of_longEnough hfsm (encodeFrame_longEnough hwf)
  refine ⟨_, he, rfl, fun i => ?_⟩
  obtain ⟨c, hc, hval⟩ := decodeSteps_larAt hu i
  simp only [State.startFrame_frameIn, State.startFrame_params, State.startFrame_bitpos, Nat.zero_add,
    readBits_larc (readFields_encodeFrame hwf) i] at hc
  rwa [Option.some.inj hc]

/-- Settles O52: the packing is evaluated; the decodings are the round trip, and the length test refuses 32
bytes. -/
theorem workedPackingExample : Obligations.WorkedPackingExample := by
  have hpack : encodeFrame .four .fr packedExample = packedExampleBytes := by decide +kernel
  have hpad : encodeFrame .four .fr { packedExample with pad := 5 } = 0x58 :: packedExampleBytes.tail := by
    decide +kernel
  refine ⟨hpack, ?_, ?_, (onlyShortInputIsRefused _ _ _).1 (by decide)⟩
  · rw [← hpack]
    exact frameRoundTrip _ _ _ (by decide +kernel)
  · rw [← hpad]
    exact frameRoundTrip _ _ _ (by decide +kernel)

end Sys2Proof.Machine

/-! Running out of frame bits, ignored bits, and that nothing stops (R61, R68, R69, R72). -/

namespace Sys2Proof.Machine

open Sys2Proof.Rules

/-- `GetBits` where fewer bits remain than it reads (R61). -/
theorem getBits_eq_none {s : State} {n : Nat} (hn : 0 < n) (short : 8 * s.frameIn.length < cursor s + n) :
    s.getBits n = none := by
  rw [State.getBits, ← cursor, readBits_eq_none hn short, Option.map_none]

/-- `LARDEC` reports it where fewer than its 36 bits remain (R61): its last index is not there. -/
theorem lardec_eq_none {s : State} (short : 8 * s.frameIn.length < cursor s + 36) : s.lardec = none := by
  refine Option.eq_none_iff_forall_ne_some.mpr fun u hu => ?_
  obtain ⟨c, -, hc, -⟩ := (lardec_eq_some hu).value 7 (by decide) (by decide)
  have hnone : readBits s.frameIn (s.params.padLead.bits + (s.bitpos + larBits 7)) (larWidth 7) = none :=
    readBits_eq_none (by decide) (by
      rw [show larBits 7 = 33 by decide, show larWidth 7 = 3 by decide]
      unfold cursor at short
      omega)
  cases hnone.symm.trans hc

/-- The pulses done were all within the input (R61). -/
theorem PulsesDone.room {s t : State} {k : Fin 4} {o : BitVec 2} {m : Nat}
    (done : PulsesDone s k o m 13 t) (start : cursor s ≤ 8 * s.frameIn.length) :
    ∀ {n : Nat}, n ≤ 13 → cursor s + pulseBits s.cfgMode k n ≤ 8 * s.frameIn.length
  | 0, _ => start
  | n + 1, hn => by
    obtain ⟨x, hx, -⟩ := done.pulse n hn hn
    have := readBits_room hx (by rw [← Nat.add_assoc]; exact done.room start (Nat.le_of_succ_le hn))
    rw [pulseBits_succ _ _ hn]
    unfold cursor
    omega

/-- `APCMADD` reports it where the frame does not hold its index and its thirteen fields (R61). -/
theorem apcmadd_eq_none {s : State} {k : Fin 4} {o : BitVec 2}
    (short : 8 * s.frameIn.length < cursor s + 6 + pulseBits s.cfgMode k 13) : s.apcmadd k o = none := by
  refine Option.eq_none_iff_forall_ne_some.mpr fun u hu => ?_
  obtain ⟨m, hm, done⟩ := apcmadd_eq_some hu
  have hindex : cursor s + 6 ≤ 8 * s.frameIn.length := by
    by_contra hshort
    cases (readBits_eq_none (by decide) (Nat.lt_of_not_le hshort)).symm.trans hm
  have := done.room (by simp only [cursor] at hindex ⊢; omega) (Nat.le_refl 13)
  simp only [cursor] at this short
  omega

/-- The meaning of `GetBits` gives a next state whether the bits are there or not (R61; log entry 9). -/
theorem exists_execGetBits_next (n : Nat) (s : State) : ∃ t, execGetBits n s = .next t := by
  unfold execGetBits
  split <;> exact ⟨_, rfl⟩

/-- The meaning of `LARDEC` gives a next state whether the bits are there or not (R61; log entry 9). -/
theorem exists_execLardec_next (s : State) : ∃ t, execLardec s = .next t := by
  unfold execLardec
  split <;> exact ⟨_, rfl⟩

/-- The meaning of `APCMADD` gives a next state whether the bits are there or not (R61; log entry 9). -/
theorem exists_execApcmadd_next (k : Fin 4) (o : BitVec 2) (s : State) :
    ∃ t, execApcmadd k o s = .next t := by
  unfold execApcmadd
  split <;> exact ⟨_, rfl⟩

/-- `GetBits` short of bits ends the command with TruncatedInput (R140; log entry 9). -/
theorem execGetBits_of_none {n : Nat} {s : State} (h : s.getBits n = none) :
    execGetBits n s = .next (s.raise .truncatedInput) := by
  rw [execGetBits, h]

/-- `LARDEC` short of bits ends the command with TruncatedInput (R140; log entry 9). -/
theorem execLardec_of_none {s : State} (h : s.lardec = none) :
    execLardec s = .next (s.raise .truncatedInput) := by
  obtain ⟨t, ht⟩ := exists_execLardec_next s
  obtain done | ⟨-, rfl⟩ := execLardec_cases ht
  · cases h.symm.trans done
  · exact ht

/-- `APCMADD` short of bits ends the command with TruncatedInput (R140; log entry 9). -/
theorem execApcmadd_of_none {k : Fin 4} {o : BitVec 2} {s : State} (h : s.apcmadd k o = none) :
    execApcmadd k o s = .next (s.raise .truncatedInput) := by
  obtain ⟨t, ht⟩ := exists_execApcmadd_next k o s
  obtain done | ⟨-, rfl⟩ := execApcmadd_cases ht
  · cases h.symm.trans done
  · exact ht

/-- Settles O6: each reader reports it, and its meaning then ends the command. -/
theorem readerRunningOutEndsTheCommand : Obligations.ReaderRunningOutEndsTheCommand := by
  rintro s _ rfl
  refine ⟨fun n hn short => execGetBits_of_none (getBits_eq_none hn short),
    fun short => execLardec_of_none (lardec_eq_none short),
    fun k o short => execApcmadd_of_none (apcmadd_eq_none ?_)⟩
  rwa [← residualBits_thirteen]

/-- Settles O35: in Ready the two decodes start alike; elsewhere the frame is not read. -/
theorem paddingAndTrailingBitsAreIgnored : Obligations.PaddingAndTrailingBitsAreIgnored := by
  intro f g s hf hg hbits
  cases hfsm : s.fsm with
  | idle =>
    exact ⟨s.raise .noSession, by simp only [exec, execDecodeFrame, hfsm],
      by simp only [exec, execDecodeFrame, hfsm]⟩
  | ready =>
    exact exec_decodeFrame_eq_of_alike (startFrame_alike ⟨rfl, rfl, rfl, rfl, rfl, rfl, rfl⟩ rfl hbits)
      hfsm hfsm hf hg rfl rfl
  | decoding =>
    exact ⟨s, exec_decode_in_progress hfsm ⟨.decodeFrame, .fr, f⟩,
      exec_decode_in_progress hfsm ⟨.decodeFrame, .fr, g⟩⟩

/-- R68, R148: every instruction gives a next state: each meaning ends in one on every path. -/
theorem exists_exec_next (i : Instr) (s : State) : ∃ t, exec i s = .next t := by
  cases i with
  | decodeFrame frame =>
    obtain ⟨-, he⟩ | ⟨-, he⟩ | ⟨-, -, he⟩ | ⟨-, -, _, -, he⟩ := execDecodeFrame_cases frame s
    all_goals exact ⟨_, he⟩
  | sessionOpen mode =>
    obtain ⟨-, he⟩ | ⟨-, he⟩ := execSessionOpen_cases mode s
    all_goals exact ⟨_, he⟩
  | sessionClose =>
    obtain ⟨-, he⟩ | ⟨-, he⟩ | ⟨-, he⟩ := execSessionClose_cases s
    all_goals exact ⟨_, he⟩
  | lardec => exact exists_execLardec_next s
  | apcmadd k o => exact exists_execApcmadd_next k o s
  | getBits n => exact exists_execGetBits_next n s
  | _ => exact ⟨_, rfl⟩

/-- Settles O47: the instructions one by one, then the three things a step can do. -/
theorem everyInstructionGivesANextState : Obligations.EveryInstructionGivesANextState := by
  refine ⟨exists_exec_next, fun s => ?_⟩
  obtain ⟨hs, -⟩ | ⟨rest, -, hs⟩ | ⟨r, rest, -, -, hs⟩ := step_cases s
  · exact ⟨_, hs⟩
  · exact ⟨_, hs⟩
  · rw [hs]
    exact exists_exec_next _ _

/-- R72: what the port selects has a port content that encodes it. -/
theorem exists_encode_decode (r : Request) : ∃ r', encode (decode r) = some r' := by
  cases hcmd : r.cmd <;> exact ⟨_, by rw [decode, hcmd, encode]⟩

/-- R72: an instruction with an encoding is what the port selects by it. -/
theorem decode_of_encode {i : Instr} {r : Request} (h : encode i = some r) : decode r = i := by
  cases i <;> cases h <;> rfl

/-- Settles O56: the three values of `CMD`, and the instructions that have an encoding. -/
theorem commandPortSelectsTheCommands : Obligations.CommandPortSelectsTheCommands := by
  refine ⟨fun mode bytes => ⟨rfl, rfl, rfl⟩, fun i => ⟨?_, fun ⟨r, h⟩ => ⟨r, decode_of_encode h⟩⟩⟩
  rintro ⟨r, rfl⟩
  exact exists_encode_decode r

end Sys2Proof.Machine

/-! The arithmetic primitives (40_arith_primitives.md), and what follows from their ranges: `LTSYN` needs no
narrowing, and a delivered block holds multiples of 8. -/

namespace Sys2Proof.Machine

/-- Settles O1: the value returned is `roundMul`, whose formula and bounds are its laws. -/
theorem roundMulRoundsToNearest : Obligations.RoundMulRoundsToNearest :=
  fun a b _ => ⟨roundMul a b, rfl, roundMul_def a b, roundMul_bounds a b⟩

/-- Settles O2: the value returned is `clip16`, which is that case distinction. -/
theorem clipSaturatesToSixteenBits : Obligations.ClipSaturatesToSixteenBits :=
  fun _ _ => rfl

/-- Settles O3: the value returned is `wrap16`, which is the value a sample holds. -/
theorem wrapKeepsLowSixteenBits : Obligations.WrapKeepsLowSixteenBits :=
  fun x _ => ⟨wrap16 x, rfl, rfl, (toSample_toInt x).symm, wrap16_of_fits⟩

/-- Settles O4: the value returned is `wrap32`, which is the value a word holds. -/
theorem wrapKeepsLowThirtyTwoBits : Obligations.WrapKeepsLowThirtyTwoBits :=
  fun x _ => ⟨wrap32 x, rfl, rfl, (toWord_toInt x).symm,
    fun lo hi => wrap32_of_fits lo (Int.lt_of_le_sub_one hi)⟩

/-- A sample scaled by a gain of at most 32767 lies in -32767..32766: the product lies between those of the
gain with the two ends of the sample range (R80). -/
theorem roundMul_range_of_gain {g x : Int} (hg : 0 ≤ g) (hg' : g ≤ 32767) (hx : -32768 ≤ x ∧ x ≤ 32767) :
    -32767 ≤ roundMul g x ∧ roundMul g x ≤ 32766 := by
  have lo : g * -32768 ≤ g * x := Int.mul_le_mul_of_nonneg_left hx.1 hg
  have hi : g * x ≤ g * 32767 := Int.mul_le_mul_of_nonneg_left hx.2 hg
  rw [roundMul_def]
  omega

/-- A lag in 40..120 is its own clamp (R110). -/
theorem clampLag_of_mem {lag : Nat} (lo : 40 ≤ lag) (hi : lag ≤ 120) : clampLag lag = lag := by
  rw [clampLag, clamp, if_neg (Nat.not_lt.mpr lo), if_neg (Nat.not_lt.mpr hi)]

/-- What `LTSYN` leaves in the samples of its subframe (R111). -/
theorem ltsyn_excAt_writePos (s : State) (k : Fin 4) (lag : Nat) (g : BitVec 16) (n : Nat) (hn : n < 40) :
    (s.ltsyn k lag g).excAt (writePos k n hn) =
      wrap16 (roundMul g.toNat (s.excAt (readPos k lag n hn))) := by
  rw [ltsyn_excAt, dif_pos (by simp only [writePos]; omega)]
  rfl

/-- Settles O19: the scaled samples fit 16 bits, so the store keeps them. -/
theorem ltsynNeedsNoNarrowing : Obligations.LtsynNeedsNoNarrowing := by
  intro k lag g s hlo hlag hg
  refine ⟨s.ltsyn k lag g, rfl, fun n hn => ?_⟩
  have hread : readPos k lag n hn = ⟨120 + 40 * k.val + n - lag, by omega⟩ :=
    Fin.ext (congrArg (120 + 40 * k.val + n - ·) (clampLag_of_mem hlo hlag))
  obtain ⟨hmin, hmax⟩ := roundMul_range_of_gain (g := g.toNat) (by omega) (by omega)
    (excAt_range s ⟨120 + 40 * k.val + n - lag, by omega⟩)
  have hval := ltsyn_excAt_writePos s k lag g n hn
  rw [hread, wrap16_of_fits (by omega) (by omega), writePos] at hval
  rw [hval]
  refine ⟨roundMul_def _ _, hmin, hmax, ?_⟩
  rintro rfl
  exact zero_roundMul _

/-- What a decode delivers is what `DEEMPH` wrote: step 6 and the end of the frame leave `PCM` alone (R125,
R126). -/
theorem endFrame_finishFrame_pcm (s : State) (i : Fin 160) :
    (s.finishFrame.endFrame.pcm[i]).toInt = pcmOut (msrBefore s.histshift.stsyn (i + 1)) :=
  (deemph_spec s.histshift.stsyn).2 i

/-- Settles O23: every sample delivered is an output of `DEEMPH`. -/
theorem outputSamplesAreMultiplesOfEight : Obligations.OutputSamplesAreMultiplesOfEight := by
  intro frame s hfsm hlen
  obtain ⟨u, hu, he⟩ := exec_decodeFrame_of_longEnough hfsm hlen
  obtain ⟨s1, -, hfin⟩ := Option.bind_eq_some_iff.mp hu
  obtain ⟨s2, -, rfl⟩ := Option.map_eq_some_iff.mp hfin
  refine ⟨_, he, rfl, fun i => ?_⟩
  rw [endFrame_finishFrame_pcm]
  exact pcmOut_spec _

end Sys2Proof.Machine

/-! The LAR decoder (41_lar_decode.md): the values `LARDEC` stores, and what they make of the blends and the
coefficients (42_reflection.md). -/

namespace Sys2Proof.Machine

open Sys2Proof.Rules

/-- `LARDEC` where it completes (R90). -/
theorem execLardec_of_some {s u : State} (h : s.lardec = some u) : execLardec s = .next u := by
  obtain ⟨t, ht⟩ := exists_execLardec_next s
  obtain done | ⟨hnone, -⟩ := execLardec_cases ht
  · rw [ht, Option.some.inj (done.symm.trans h)]
  · exact absurd (h.symm.trans hnone) (Option.some_ne_none u)

/-- What `LARDEC` leaves in the current slot, in the terms of R63's and R90's tables. -/
theorem LarsDone.larAt_slot {s t : State} (done : LarsDone s 8 t) (i : Fin 8) :
    ∃ c, field s (larRow i).start (larRow i).width = some c ∧ (t.larAt s.larSlot i).toInt = larOf i c := by
  obtain ⟨c, -, hc, hval⟩ := done.value i i.isLt i.isLt
  obtain ⟨hstart, hwidth⟩ := larRow_eq i
  rw [field, cursor, hstart, hwidth, Nat.add_assoc]
  exact ⟨c, hc, hval.trans (larValue_eq_larOf i c)⟩

/-- `LARDEC` leaves the other slot as it is (R90). -/
theorem LarsDone.larAt_otherSlot {s t : State} (done : LarsDone s 8 t) (i : Fin 8) :
    t.larAt (otherSlot s.larSlot) i = s.larAt (otherSlot s.larSlot) i :=
  done.rest _ i (.inl (otherSlot_ne _))

/-- Settles O7: the eight iterations, each index at its position among the 36 bits. -/
theorem lardecDecodesEightLars : Obligations.LardecDecodesEightLars := by
  intro s room
  obtain ⟨u, hu, done⟩ := exists_lardec room
  have hframe : u = { s with lar := u.lar, bitpos := s.bitpos + 36 } := by
    obtain ⟨l, rfl⟩ := done.frame
    rw [larBits_eight]
  exact ⟨u, execLardec_of_some hu, hframe, fun i => ⟨done.larAt_otherSlot i, done.larAt_slot i⟩⟩

/-- Row i of R92's table has one entry for each index of the width R63 gives it. -/
theorem length_larTable (i : Fin 8) : (larTable i).length = 2 ^ (larRow i).width := by
  fin_cases i <;> rfl

/-- R92's table holds what R90's formula gives, entry by entry. -/
theorem larTable_getElem? :
    ∀ (i : Fin 8) (c : Nat), c < 2 ^ (larRow i).width → (larTable i)[c]? = some (larOf i c) := by
  decide +kernel

/-- Every value of R90's formula lies in -26214..25394 (R92). -/
theorem larOf_range {i : Fin 8} {c : Nat} (h : c < 2 ^ (larRow i).width) :
    -26214 ≤ larOf i c ∧ larOf i c ≤ 25394 := by
  rw [← larValue_eq_larOf]
  exact larValue_range i c ((larRow_eq i).2 ▸ h)

/-- Settles O8: an index that was read is within its row, whose entries are R90's values. -/
theorem lardecFollowsTheCompleteTable : Obligations.LardecFollowsTheCompleteTable := by
  intro s room
  obtain ⟨u, hu, done⟩ := exists_lardec room
  refine ⟨u, execLardec_of_some hu, fun i => ?_⟩
  obtain ⟨c, hc, hval⟩ := done.larAt_slot i
  have hlt := readBits_lt hc
  rw [hval]
  exact ⟨length_larTable i, (larOf_range hlt).1, (larOf_range hlt).2, c, hc, larTable_getElem? i c hlt⟩

/-- A LAR word the decoder can hold lies in -26214..25394 (R92). -/
theorem LarLegal.range {s : State} (h : LarLegal s) (slot : Slot) (i : Fin 8) :
    -26214 ≤ (s.larAt slot i).toInt ∧ (s.larAt slot i).toInt ≤ 25394 := by
  obtain hzero | ⟨c, hc, hval⟩ := h slot i
  · rw [hzero]
    decide
  · rw [hval]
    exact larValue_range i c hc

/-- The blend as the rules write it and as the model does (R100). -/
theorem blendOf_eq_blend (r : Fin 4) (p c : Int) : blendOf r p c = blend r p c := by
  fin_cases r <;> rfl

/-- The transform as the rules write it and as the model does (R95). -/
theorem reflectOf_eq_reflectInt (x : Int) : reflectOf x = reflectInt x := rfl

/-- The blend of two values of the LAR range lies in -26215..25394: each floor shift loses less than 1
(R100, R101). -/
theorem blendOf_range (r : Fin 4) {p c : Int} (hp : -26214 ≤ p ∧ p ≤ 25394) (hc : -26214 ≤ c ∧ c ≤ 25394) :
    -26215 ≤ blendOf r p c ∧ blendOf r p c ≤ 25394 := by
  fin_cases r <;> simp only [blendOf] <;> omega

/-- On that range the coefficient lies in -32665..32460, below 1 in Q15 (R95). -/
theorem reflectOf_range {x : Int} (h : -26215 ≤ x ∧ x ≤ 25394) : -32665 ≤ reflectOf x ∧ reflectOf x ≤ 32460 := by
  unfold reflectOf
  obtain hneg | hpos := lt_or_ge x 0
  · rw [abs_of_neg hneg, if_pos hneg]
    split_ifs <;> omega
  · rw [abs_of_nonneg hpos, if_neg (Int.not_lt.mpr hpos)]
    split_ifs <;> omega

/-- The coefficient of a blend whose magnitude is representable (R95, R100). -/
theorem coefficient_toInt {s : State} {r : Fin 4} {i : Fin 8} (h : blendIn s r i ≠ -(2 ^ 31)) :
    (s.coefficient r i).toInt = reflectOf (blendIn s r i) := by
  rw [blendIn, blendOf_eq_blend] at h ⊢
  rw [State.coefficient, reflect_toInt, toWord_blend_toInt]
  · exact (reflectOf_eq_reflectInt _).symm
  · rw [toWord_blend_toInt]
    exact h

/-- Settles O13: the range of the LAR values, then of the blends, then of the coefficients. -/
theorem reachableCoefficientsAreBelowOne : Obligations.ReachableCoefficientsAreBelowOne := by
  intro r s legal
  refine ⟨s.larblend r, rfl, fun i => ?_⟩
  have hblend : -26215 ≤ blendIn s r i ∧ blendIn s r i ≤ 25394 :=
    blendOf_range r (legal.range _ i) (legal.range _ i)
  have hrrp : ((s.larblend r).rrp[i]).toInt = reflectOf (blendIn s r i) := by
    rw [larblend_eq, ← coefficient_toInt (by omega)]
    simp
  rw [hrrp]
  exact ⟨hblend.1, hblend.2, rfl, reflectOf_range hblend⟩

end Sys2Proof.Machine

/-! What a decode and a step do to the LAR registers (R34, R127, R128). -/

namespace Sys2Proof.Machine

open Sys2Proof.Rules

/-- A decode keeps the slot that `LAR_SLOT` did not name before it (R128): after `LARDEC` no step writes
`LAR`. -/
theorem decodeSteps_larAt_otherSlot {s u : State} (h : s.decodeSteps = some u) (i : Fin 8) :
    u.larAt (otherSlot s.larSlot) i = s.larAt (otherSlot s.larSlot) i := by
  obtain ⟨s1, h1, hu⟩ := Option.bind_eq_some_iff.mp h
  obtain ⟨s2, h2, rfl⟩ := Option.map_eq_some_iff.mp hu
  rw [← (lardec_eq_some h1).larAt_otherSlot i]
  obtain ⟨e, w, q, o, m, hf⟩ := finishFrame_frame s2
  obtain ⟨e', rfl⟩ := subframes_frame h2
  rw [hf]
  rfl

/-- A decode flips `LAR_SLOT` once (R131). -/
theorem decodeSteps_larSlot {s u : State} (h : s.decodeSteps = some u) : u.larSlot = otherSlot s.larSlot := by
  obtain ⟨l, e, w, q, o, m, rfl⟩ := decodeSteps_frame h
  rfl

/-- The end of a frame keeps the LAR words and `LAR_SLOT` (R27). -/
theorem endFrame_lar (s : State) :
    s.endFrame.larSlot = s.larSlot ∧ ∀ slot i, s.endFrame.larAt slot i = s.larAt slot i :=
  ⟨rfl, fun _ _ => rfl⟩

/-- Settles O32: step 1 writes the slot named before the decode, step 6 flips the index. -/
theorem decodeWritesTheCurrentSlotThenToggles : Obligations.DecodeWritesTheCurrentSlotThenToggles := by
  intro frame s hfsm hlen
  obtain ⟨u, hu, he⟩ := exec_decodeFrame_of_longEnough hfsm hlen
  obtain ⟨hslot, hlar⟩ := endFrame_lar u
  refine ⟨_, he, hslot.trans (decodeSteps_larSlot (s := s.startFrame frame) hu), fun i => ?_⟩
  rw [hlar, hlar]
  have hwritten := decodeSteps_larAt hu i
  simp only [State.startFrame_frameIn, State.startFrame_params, State.startFrame_bitpos, Nat.zero_add]
    at hwritten
  exact ⟨decodeSteps_larAt_otherSlot hu i, hwritten⟩

/-- A slot is a given one or the other (R22). -/
theorem eq_or_eq_otherSlot (slot slot' : Slot) : slot = slot' ∨ slot = otherSlot slot' := by
  revert slot slot'
  decide

/-- A decode leaves LAR words the decoder can hold: those of one slot it writes, those of the other it
keeps (R34). -/
theorem decodeSteps_larLegal {s u : State} (h : s.decodeSteps = some u) (legal : LarLegal s) : LarLegal u := by
  intro slot i
  obtain rfl | rfl := eq_or_eq_otherSlot slot s.larSlot
  · obtain ⟨c, hc, hval⟩ := decodeSteps_larAt h i
    rw [← larValue_eq_larOf] at hval
    exact .inr ⟨c, (larRow_eq i).2 ▸ readBits_lt hc, hval⟩
  · rw [decodeSteps_larAt_otherSlot h i]
    exact legal _ i

/-- The LAR words of a fresh session are all 0 (R33, R34). -/
theorem freshSession_larLegal (s : State) (mode : Mode) : LarLegal (s.freshSession mode) := by
  intro slot i
  left
  simp [State.larAt]

/-- In Idle the invariant says nothing of the LAR registers (R34). -/
theorem inv_of_idle {s : State} (h : s.fsm = .idle) : Inv s :=
  ⟨by rw [h]; nofun, fun hready => nomatch h.symm.trans hready⟩

/-- In Ready the invariant is what it says of the LAR registers (R34). -/
theorem inv_of_ready {s : State} (h : s.fsm = .ready) (legal : LarLegal s) : Inv s :=
  ⟨by rw [h]; nofun, fun _ => legal⟩

/-- A command that fails keeps the invariant: `FSM` is not Decoding, so it is kept, and so is `LAR`
(R141). -/
theorem inv_raise {s : State} (h : Inv s) (r : Resp) : Inv (s.raise r) := by
  obtain ⟨hfsm, hlegal⟩ := h
  have hkept : (s.raise r).fsm = s.fsm := by rw [State.raise_fsm, if_neg hfsm]
  exact ⟨hkept ▸ hfsm, fun hready => hlegal (hkept ▸ hready)⟩

theorem execDecodeFrame_keeps_inv {frame : List Byte} {s t : State} (h : execDecodeFrame frame s = .next t)
    (hinv : Inv s) : Inv t := by
  obtain ⟨-, he⟩ | ⟨-, he⟩ | ⟨-, -, he⟩ | ⟨hfsm, -, u, hu, he⟩ := execDecodeFrame_cases frame s
  all_goals cases he.symm.trans h
  · exact hinv
  · exact inv_raise hinv _
  · exact inv_raise hinv _
  · have legal : LarLegal u := decodeSteps_larLegal hu (hinv.2 hfsm)
    exact inv_of_ready rfl legal

theorem execSessionOpen_keeps_inv {mode : Mode} {s t : State} (h : execSessionOpen mode s = .next t)
    (hinv : Inv s) : Inv t := by
  obtain ⟨-, he⟩ | ⟨-, he⟩ := execSessionOpen_cases mode s
  all_goals cases he.symm.trans h
  · exact hinv
  · exact inv_of_ready rfl (freshSession_larLegal s mode)

theorem execSessionClose_keeps_inv {s t : State} (h : execSessionClose s = .next t) (hinv : Inv s) :
    Inv t := by
  obtain ⟨-, he⟩ | ⟨hfsm, he⟩ | ⟨-, he⟩ := execSessionClose_cases s
  all_goals cases he.symm.trans h
  · exact hinv
  · exact inv_of_idle hfsm
  · exact inv_of_idle rfl

/-- Every command the port selects keeps the invariant (R72, R127). -/
theorem exec_decode_keeps_inv {r : Request} {s t : State} (h : exec (decode r) s = .next t) (hinv : Inv s) :
    Inv t := by
  unfold decode at h
  cases hcmd : r.cmd <;> rw [hcmd] at h
  case sessionOpen => exact execSessionOpen_keeps_inv h hinv
  case decodeFrame => exact execDecodeFrame_keeps_inv h hinv
  case sessionClose => exact execSessionClose_keeps_inv h hinv

/-- Settles O39: a wait changes nothing, the hard reset ends in Idle, and each command keeps it. -/
theorem everyStepKeepsTheInvariant : Obligations.EveryStepKeepsTheInvariant := by
  intro s t hinv h
  obtain ⟨hs, -⟩ | ⟨rest, -, hs⟩ | ⟨r, rest, -, -, hs⟩ := step_cases s
  · cases hs.symm.trans h
    exact hinv
  · cases hs.symm.trans h
    exact inv_of_idle rfl
  · exact exec_decode_keeps_inv (hs.symm.trans h) hinv

end Sys2Proof.Machine

/-! The exchange of the two LAR slots (R31, 10_state.md "Hidden state"): every operation of a decode commutes
with it, and so a step cannot tell. -/

namespace Sys2Proof.Machine

/-- An ascending loop commutes with what each of its iterations commutes with. -/
theorem forUp_commutes {σ : Type} {g : σ → σ} {n : Nat} {body : (i : Nat) → i < n → σ → σ}
    (comm : ∀ i h s, body i h (g s) = g (body i h s)) (s : σ) : forUp n body (g s) = g (forUp n body s) :=
  forUp_related (fun a b => a = g b) n body body (g s) s rfl fun i h a b hab => by rw [hab, comm]

/-- The same where an iteration may fail: it fails on both sides or on neither. -/
theorem forUpM_commutes {σ : Type} {g : σ → σ} {n : Nat} {body : (i : Nat) → i < n → σ → Option σ}
    (comm : ∀ i h s, body i h (g s) = (body i h s).map g) (s : σ) :
    forUpM n body (g s) = (forUpM n body s).map g := by
  induction n with
  | zero => rfl
  | succ n ih =>
    rw [forUpM_succ, forUpM_succ, ih fun i h => comm i (Nat.lt_succ_of_lt h), Option.bind_map,
      Option.map_bind]
    exact congrArg _ (funext (comm n (Nat.lt_succ_self n)))

theorem getBits_exchangeSlots (s : State) (n : Nat) :
    s.exchangeSlots.getBits n = (s.getBits n).map fun vt => (vt.1, vt.2.exchangeSlots) := by
  rw [State.getBits, State.getBits, Option.map_map]
  rfl

theorem excAt_exchangeSlots (s : State) (a : Fin 280) : s.exchangeSlots.excAt a = s.excAt a := rfl

theorem setPcm_exchangeSlots (s : State) (i : Fin 160) (x : Int) :
    s.exchangeSlots.setPcm i x = (s.setPcm i x).exchangeSlots := rfl

theorem lartoggle_exchangeSlots (s : State) : s.exchangeSlots.lartoggle = s.lartoggle.exchangeSlots := rfl

theorem otherSlot_inj {slot slot' : Slot} : otherSlot slot = otherSlot slot' ↔ slot = slot' := by
  revert slot slot'
  decide

/-- Writing the same coefficient of the slot of the same role, before or after the exchange (R90). -/
theorem setLar_exchangeSlots (s : State) (slot : Slot) (i : Fin 8) (w : Word) :
    s.exchangeSlots.setLar (otherSlot slot) i w = (s.setLar slot i w).exchangeSlots := by
  have hlar : (s.exchangeSlots.setLar (otherSlot slot) i w).lar = (s.setLar slot i w).exchangeSlots.lar := by
    refine lar_ext fun slot' j => ?_
    rw [← otherSlot_otherSlot slot', larAt_setLar, larAt_exchangeSlots, larAt_exchangeSlots, larAt_setLar]
    simp only [otherSlot_inj]
  exact congrArg (fun l => { s.exchangeSlots with lar := l }) hlar

theorem larStage_exchangeSlots (i : Fin 8) (s : State) :
    larStage i s.exchangeSlots = (larStage i s).map State.exchangeSlots := by
  rw [larStage, larStage, getBits_exchangeSlots, Option.map_map, Option.map_map]
  exact congrArg (Option.map · _) (funext fun ct => setLar_exchangeSlots ct.2 ct.2.larSlot i _)

theorem lardec_exchangeSlots (s : State) : s.exchangeSlots.lardec = s.lardec.map State.exchangeSlots :=
  forUpM_commutes (fun i h => larStage_exchangeSlots ⟨i, h⟩) s

theorem ltsyn_exchangeSlots (s : State) (k : Fin 4) (lag : Nat) (g : BitVec 16) :
    s.exchangeSlots.ltsyn k lag g = (s.ltsyn k lag g).exchangeSlots := by
  rw [State.ltsyn, State.ltsyn]
  apply forUp_commutes (g := State.exchangeSlots)
  exact fun _ _ _ => rfl

theorem apcmPulse_exchangeSlots (k : Fin 4) (o : BitVec 2) (m j : Nat) (h : j < 13) (s : State) :
    apcmPulse k o m j h s.exchangeSlots = (apcmPulse k o m j h s).map State.exchangeSlots := by
  simp only [apcmPulse, getBits_exchangeSlots, Option.map_map]
  rfl

theorem apcmadd_exchangeSlots (s : State) (k : Fin 4) (o : BitVec 2) :
    s.exchangeSlots.apcmadd k o = (s.apcmadd k o).map State.exchangeSlots := by
  rw [State.apcmadd, State.apcmadd, getBits_exchangeSlots, Option.bind_map, Option.map_bind]
  exact congrArg _ (funext fun mt => forUpM_commutes (apcmPulse_exchangeSlots k o mt.1) mt.2)

/-- One subframe of step 2 (R129). -/
theorem subframe_exchangeSlots (s : State) (k : Fin 4) :
    s.exchangeSlots.subframe k = (s.subframe k).map State.exchangeSlots := by
  simp only [State.subframe, getBits_exchangeSlots, Option.bind_map, Option.map_bind, Function.comp_def,
    ltsyn_exchangeSlots, apcmadd_exchangeSlots]
  rfl

theorem histshift_exchangeSlots (s : State) : s.exchangeSlots.histshift = s.histshift.exchangeSlots := by
  rw [State.histshift, State.histshift]
  apply forUp_commutes (g := State.exchangeSlots)
  exact fun _ _ _ => rfl

/-- The coefficients are blended from the same words: previous and current keep their roles (R100). -/
theorem coefficient_exchangeSlots (s : State) (r : Fin 4) : s.exchangeSlots.coefficient r = s.coefficient r := by
  funext i
  rw [State.coefficient, State.exchangeSlots_larSlot, larAt_exchangeSlots, larAt_exchangeSlots]
  rfl

theorem larblend_exchangeSlots (s : State) (r : Fin 4) :
    s.exchangeSlots.larblend r = (s.larblend r).exchangeSlots := by
  rw [larblend_eq, larblend_eq, coefficient_exchangeSlots]
  rfl

theorem blendIfDue_exchangeSlots (s : State) (i : Nat) :
    s.exchangeSlots.blendIfDue i = (s.blendIfDue i).exchangeSlots := by
  unfold State.blendIfDue
  split
  · exact larblend_exchangeSlots s _
  · rfl

/-- `LATSTEP` is one lattice step on `RRP` and `V` (R102). -/
theorem latstep_eq (s : State) (x : Int) :
    s.latstep x = ((lattice s.rrp s.v x).1, { s with v := (lattice s.rrp s.v x).2 }) := rfl

theorem latstep_exchangeSlots (s : State) (x : Int) :
    s.exchangeSlots.latstep x = ((s.latstep x).1, (s.latstep x).2.exchangeSlots) := by
  rw [latstep_eq, latstep_eq, State.exchangeSlots_rrp, State.exchangeSlots_v]
  generalize lattice s.rrp s.v x = a
  rfl

/-- One sample of `STSYN` (R103). -/
theorem synthSample_exchangeSlots (i : Fin 160) (s : State) :
    synthSample i s.exchangeSlots = (synthSample i s).exchangeSlots := by
  simp only [synthSample, blendIfDue_exchangeSlots, latstep_exchangeSlots, excAt_exchangeSlots,
    setPcm_exchangeSlots]

theorem stsyn_exchangeSlots (s : State) : s.exchangeSlots.stsyn = s.stsyn.exchangeSlots := by
  rw [State.stsyn, State.stsyn]
  apply forUp_commutes (g := State.exchangeSlots)
  exact fun i h => synthSample_exchangeSlots ⟨i, h⟩

theorem deemph_exchangeSlots (s : State) : s.exchangeSlots.deemph = s.deemph.exchangeSlots := by
  rw [State.deemph, State.deemph]
  apply forUp_commutes (g := State.exchangeSlots)
  exact fun _ _ _ => rfl

/-- Steps 3 to 6 (R126). -/
theorem finishFrame_exchangeSlots (s : State) : s.exchangeSlots.finishFrame = s.finishFrame.exchangeSlots := by
  rw [State.finishFrame, histshift_exchangeSlots, stsyn_exchangeSlots, deemph_exchangeSlots,
    lartoggle_exchangeSlots, ← State.finishFrame]

/-- The six steps of a decode (R126). -/
theorem decodeSteps_exchangeSlots (s : State) :
    s.exchangeSlots.decodeSteps = s.decodeSteps.map State.exchangeSlots := by
  have hsub (t : State) : forUpM 4 (fun k h (t : State) => t.subframe ⟨k, h⟩) t.exchangeSlots =
      (forUpM 4 (fun k h (t : State) => t.subframe ⟨k, h⟩) t).map State.exchangeSlots :=
    forUpM_commutes (fun k h t => subframe_exchangeSlots t ⟨k, h⟩) t
  simp only [State.decodeSteps, lardec_exchangeSlots, Option.bind_map, Option.map_bind, Function.comp_def,
    hsub, Option.map_map, finishFrame_exchangeSlots]

/-- A `DECODE_FRAME` in Idle (R141). -/
theorem execDecodeFrame_of_idle {s : State} (hfsm : s.fsm = .idle) (frame : List Byte) :
    execDecodeFrame frame s = .next (s.raise .noSession) := by
  simp only [execDecodeFrame, hfsm]

/-- A `DECODE_FRAME` in Ready whose input is too short (R142). -/
theorem execDecodeFrame_of_short {s : State} {frame : List Byte} (hfsm : s.fsm = .ready)
    (short : 8 * frame.length < neededBits s.params.padLead s.cfgMode) :
    execDecodeFrame frame s = .next (s.raise .truncatedInput) := by
  simp only [execDecodeFrame, hfsm, if_pos short]

/-- A `DECODE_FRAME` in Ready whose input is long enough (R125). -/
theorem execDecodeFrame_of_steps {s u : State} {frame : List Byte} (hfsm : s.fsm = .ready)
    (long : neededBits s.params.padLead s.cfgMode ≤ 8 * frame.length)
    (hu : (s.startFrame frame).decodeSteps = some u) : execDecodeFrame frame s = .next u.endFrame := by
  simp only [execDecodeFrame, hfsm, if_neg (Nat.not_lt.mpr long), hu]

/-- A `DECODE_FRAME` in the exchanged state ends in the exchanged state, whatever it finds (R31). -/
theorem execDecodeFrame_exchangeSlots {frame : List Byte} {s t : State} (h : execDecodeFrame frame s = .next t) :
    execDecodeFrame frame s.exchangeSlots = .next t.exchangeSlots := by
  obtain ⟨hfsm, he⟩ | ⟨hfsm, he⟩ | ⟨hfsm, hshort, he⟩ | ⟨hfsm, hlong, u, hu, he⟩ :=
    execDecodeFrame_cases frame s
  all_goals cases he.symm.trans h
  · exact exec_decode_in_progress (s := s.exchangeSlots) hfsm ⟨.decodeFrame, .fr, frame⟩
  · exact execDecodeFrame_of_idle (s := s.exchangeSlots) hfsm frame
  · exact execDecodeFrame_of_short (s := s.exchangeSlots) hfsm hshort
  · have hu' : (s.exchangeSlots.startFrame frame).decodeSteps = some u.exchangeSlots :=
      (decodeSteps_exchangeSlots (s.startFrame frame)).trans (congrArg _ hu)
    exact execDecodeFrame_of_steps (s := s.exchangeSlots) hfsm hlong hu'

/-- Settles O37: every operation of a decode commutes with the exchange, which leaves the ports alone. -/
theorem slotExchangeIsIndistinguishable : Obligations.SlotExchangeIsIndistinguishable := by
  intro frame s
  obtain ⟨t, ht⟩ := exists_exec_next (.decodeFrame frame) s
  exact ⟨t, ht, execDecodeFrame_exchangeSlots ht, rfl, rfl⟩

/-- States alike but for the exchange show the host the same (R31). -/
theorem SlotsExchanged.observations {s s' : State} (h : SlotsExchanged s s') :
    s'.fsm = s.fsm ∧ s'.resp = s.resp ∧ s'.pcm = s.pcm ∧ s'.inputs = s.inputs := by
  obtain rfl | rfl := h
  · exact ⟨rfl, rfl, rfl, rfl⟩
  · exact ⟨rfl, rfl, rfl, rfl⟩

/-- `SESSION_OPEN` overwrites both slots and the index, unless a command is in progress (R160). -/
theorem execSessionOpen_exchangeSlots {mode : Mode} {s t : State} (h : execSessionOpen mode s = .next t) :
    ∃ t', execSessionOpen mode s.exchangeSlots = .next t' ∧ SlotsExchanged t t' := by
  obtain ⟨hfsm, he⟩ | ⟨hfsm, he⟩ := execSessionOpen_cases mode s
  all_goals cases he.symm.trans h
  · exact ⟨_, exec_decode_in_progress (s := s.exchangeSlots) hfsm ⟨.sessionOpen, mode, []⟩, .inr rfl⟩
  · obtain ⟨hbusy, -⟩ | ⟨-, he'⟩ := execSessionOpen_cases mode s.exchangeSlots
    · exact absurd hbusy hfsm
    · exact ⟨_, he', .inl rfl⟩

/-- `SESSION_CLOSE` gives up both slots and the index in Ready, and keeps them elsewhere (R162). -/
theorem execSessionClose_exchangeSlots {s t : State} (h : execSessionClose s = .next t) :
    ∃ t', execSessionClose s.exchangeSlots = .next t' ∧ SlotsExchanged t t' := by
  obtain ⟨hfsm, he⟩ | ⟨hfsm, he⟩ | ⟨hfsm, he⟩ := execSessionClose_cases s
  all_goals cases he.symm.trans h
  · exact ⟨_, by rw [execSessionClose, State.exchangeSlots_fsm, hfsm], .inr rfl⟩
  · exact ⟨_, by rw [execSessionClose, State.exchangeSlots_fsm, hfsm]; rfl, .inr rfl⟩
  · exact ⟨_, by rw [execSessionClose, State.exchangeSlots_fsm, hfsm]; rfl, .inl rfl⟩

/-- Every command the port selects takes states alike but for the exchange to such states (R31, R72). -/
theorem exec_decode_exchangeSlots {r : Request} {s t : State} (h : exec (decode r) s = .next t) :
    ∃ t', exec (decode r) s.exchangeSlots = .next t' ∧ SlotsExchanged t t' := by
  unfold decode at h ⊢
  cases hcmd : r.cmd <;> rw [hcmd] at h
  case decodeFrame => exact ⟨_, execDecodeFrame_exchangeSlots h, .inr rfl⟩
  case sessionOpen => exact execSessionOpen_exchangeSlots h
  case sessionClose => exact execSessionClose_exchangeSlots h

/-- R161: a step takes the hard reset input, whatever the state. -/
theorem step_of_hardReset {s : State} {rest : List Input} (hin : s.inputs = .hardReset :: rest) :
    step s = .next (State.hardReset { s with inputs := rest }) := by
  simp only [step, State.fetch, hin]

/-- A step from the exchanged state (R31). -/
theorem step_exchangeSlots {s t : State} (h : step s = .next t) :
    ∃ t', step s.exchangeSlots = .next t' ∧ SlotsExchanged t t' := by
  obtain ⟨hs, hin | ⟨hfsm, r, rest, hin⟩⟩ | ⟨rest, hin, hs⟩ | ⟨r, rest, hin, hfsm, hs⟩ := step_cases s
  · cases hs.symm.trans h
    exact ⟨_, step_of_no_input (s := s.exchangeSlots) hin, .inr rfl⟩
  · cases hs.symm.trans h
    exact ⟨_, step_of_command_in_progress (s := s.exchangeSlots) hin hfsm, .inr rfl⟩
  · cases hs.symm.trans h
    exact ⟨_, step_of_hardReset (s := s.exchangeSlots) hin, .inl rfl⟩
  · obtain ⟨t', ht', hrel⟩ := exec_decode_exchangeSlots (hs.symm.trans h)
    exact ⟨t', (step_of_command (s := s.exchangeSlots) hin hfsm).trans ht', hrel⟩

/-- Settles O59: from equal states the same step, from exchanged ones the exchanged step. -/
theorem slotExchangeIsKeptByEveryStep : Obligations.SlotExchangeIsKeptByEveryStep := by
  intro s s' hs
  obtain ⟨t, ht⟩ := everyInstructionGivesANextState.2 s
  have key : ∃ t', step s' = .next t' ∧ SlotsExchanged t t' := by
    obtain rfl | rfl := hs
    · exact ⟨t, ht, .inl rfl⟩
    · exact step_exchangeSlots ht
  obtain ⟨t', ht', hrel⟩ := key
  exact ⟨t, t', ht, ht', hrel, hrel.observations⟩

end Sys2Proof.Machine

/-! The reflection transform (42_reflection.md): `REFLECT` region by region, and what R96 derives of it. -/

namespace Sys2Proof.Machine

open Sys2Proof.Rules

/-- `REFLECT` where the magnitude of its operand is representable (R95). -/
theorem exec_reflect {x : Word} (h : x.toInt ≠ -(2 ^ 31)) (s : State) :
    exec (.reflect x) s = .next { s with ret := reflectOf x.toInt } := by
  rw [reflectOf_eq_reflectInt, ← reflect_toInt h]
  rfl

/-- Settles O9: the result of the transform fits a word, so the word returned is the integer of R95. -/
theorem reflectTransformsTheMagnitude : Obligations.ReflectTransformsTheMagnitude :=
  fun _ s h => exec_reflect h s

/-- From 0 on the magnitude is the operand: the three regions, each with its slope (R95). -/
theorem reflectOf_of_nonneg {x : Int} (hx : 0 ≤ x) :
    reflectOf x = if x < 11059 then x * 2 else if x < 20070 then x + 11059 else x / 4 + 26112 := by
  rw [reflectOf, abs_of_nonneg hx, if_neg (Int.not_lt.mpr hx)]

/-- The first region (R95). -/
theorem reflectOf_of_lt_11059 {x : Int} (lo : 0 ≤ x) (hi : x < 11059) : reflectOf x = x * 2 := by
  rw [reflectOf_of_nonneg lo, if_pos hi]

/-- The second region (R95). -/
theorem reflectOf_of_lt_20070 {x : Int} (lo : 11059 ≤ x) (hi : x < 20070) : reflectOf x = x + 11059 := by
  rw [reflectOf_of_nonneg (by omega), if_neg (Int.not_lt.mpr lo), if_pos hi]

/-- The third region (R95). -/
theorem reflectOf_of_ge_20070 {x : Int} (lo : 20070 ≤ x) : reflectOf x = x / 4 + 26112 := by
  have past : ¬ x < 11059 := by omega
  rw [reflectOf_of_nonneg (by omega), if_neg past, if_neg (Int.not_lt.mpr lo)]

/-- `reflect` is odd (R96). -/
theorem reflectOf_neg (x : Int) : reflectOf (-x) = -reflectOf x := by
  obtain hneg | rfl | hpos := lt_trichotomy x 0
  · have hx : ¬ -x < 0 := by omega
    simp only [reflectOf, abs_neg, if_pos hneg, if_neg hx, neg_neg]
  · rfl
  · have hx : ¬ x < 0 := by omega
    simp only [reflectOf, abs_neg, if_pos (Int.neg_neg_of_pos hpos), if_neg hx]

/-- From 0 on `reflect` never decreases, within a region or across its boundaries (R96). -/
theorem reflectOf_mono {x y : Int} (hx : 0 ≤ x) (hxy : x ≤ y) : reflectOf x ≤ reflectOf y := by
  rw [reflectOf_of_nonneg hx, reflectOf_of_nonneg (hx.trans hxy)]
  split_ifs <;> omega

/-- R96's table: each corner is a word of the transform's domain, with the value printed there. -/
theorem reflectCorners_values : ∀ p ∈ reflectCorners,
    (BitVec.ofInt 32 p.1).toInt = p.1 ∧ p.1 ≠ -(2 ^ 31) ∧ reflectOf p.1 = p.2 := by
  decide

/-- `REFLECT` on a corner of R96's table. -/
theorem exec_reflect_corner {p : Int × Int} (hp : p ∈ reflectCorners) (s : State) :
    exec (.reflect (BitVec.ofInt 32 p.1)) s = .next { s with ret := p.2 } := by
  obtain ⟨hword, hne, hval⟩ := reflectCorners_values p hp
  have h := exec_reflect (hword.symm ▸ hne) s
  rwa [hword, hval] at h

/-- Settles O11: oddness and monotony of the transform, its three region equations, and the table. -/
theorem reflectGrowsByRegionAndIsOdd : Obligations.ReflectGrowsByRegionAndIsOdd := by
  refine ⟨fun x y s hx hy => ?_, fun p hp s => exec_reflect_corner hp s⟩
  refine ⟨_, _, exec_reflect hx s, exec_reflect hy s, ?odd, reflectOf_mono, ?first, ?second, ?third⟩
  case odd =>
    intro heq
    rw [heq, reflectOf_neg]
  case first =>
    intro lo heq hi
    rw [reflectOf_of_lt_11059 lo (by omega), reflectOf_of_lt_11059 (by omega) hi]
    omega
  case second =>
    intro lo heq hi
    rw [reflectOf_of_lt_20070 lo (by omega), reflectOf_of_lt_20070 (by omega) hi]
    omega
  case third =>
    intro lo heq
    rw [reflectOf_of_ge_20070 lo, reflectOf_of_ge_20070 (by omega)]
    omega

end Sys2Proof.Machine

/-! The short-term synthesis filter (43_short_term_synth.md): `LARBLEND`, one lattice step, `STSYN` as a
sequence of them, and that `HISTSHIFT` may run after it (47_orchestrator.md, "Permitted reorderings"). -/

namespace Sys2Proof.Machine

open Sys2Proof.Rules

/-- Settles O12: all `LARBLEND` writes is the coefficients, each the reflection of its blend. -/
theorem larblendComputesTheCoefficients : Obligations.LarblendComputesTheCoefficients := by
  intro r s
  refine ⟨s.larblend r, rfl, ?frame, fun i hblend => ?coefficient⟩
  case frame => simp only [larblend_eq]
  case coefficient =>
    rw [← coefficient_toInt hblend, larblend_eq]
    simp

/-- `LATSTEP` writes the lattice memory and returns the lattice output (R102). -/
theorem exec_latstep (x : Sample) (s : State) :
    exec (.latstep x) s = .next { s with
      v := (lattice s.rrp s.v x.toInt).2, ret := (lattice s.rrp s.v x.toInt).1 } := rfl

/-- Settles O14: the running values of the lattice step are the sequence asked for. -/
theorem latstepRunsTheStagesInOrder : Obligations.LatstepRunsTheStagesInOrder := by
  intro x s
  obtain ⟨inner, hstart, hout, hstage, hlast⟩ := lattice_spec s.rrp s.v x.toInt
  have hinner : ∀ i : Fin 8, wrap32 (inner i) = inner i := fun i => by rw [(hstage i).1, wrap32_wrap32]
  refine ⟨_, inner, exec_latstep x s, by rw [hout], hstart, ?_, fun i => ⟨?_, ?_⟩⟩
  · exact (congrArg BitVec.toInt hlast).trans ((toWord_toInt _).trans (hinner 0))
  · rw [← roundMul_def]
    exact (hstage i).1
  · rw [← roundMul_def, (hstage i).2, toWord_toInt, wrap32_wrap32]

/-- A vector of words is determined by the integers it holds. -/
theorem vector_eq_of_map_toInt {n : Nat} {v w : Vector Word n}
    (h : v.toList.map BitVec.toInt = w.toList.map BitVec.toInt) : v = w :=
  Vector.toList_inj.mp (List.map_injective_iff.mpr (fun _ _ => BitVec.eq_of_toInt_eq) h)

/-- The lattice step of R105's worked example. -/
theorem lattice_workedExample :
    lattice #v[16384, toWord (-16384), 8192, 0, 0, 0, 0, 32460]
        #v[100, toWord (-200), 300, 0, 0, 0, 0, 1000, 5] 1000 =
      (-216, #v[toWord (-216), toWord (-8), toWord (-117), 284, 0, 0, 0, 0, 1009]) := by
  decide

/-- Settles O15: the premises fix the coefficients and the memory, and the step on them is R105's. -/
theorem latstepWorkedExample : Obligations.LatstepWorkedExample := by
  intro s hrrp hv
  have hrrp' : s.rrp = #v[16384, toWord (-16384), 8192, 0, 0, 0, 0, 32460] :=
    vector_eq_of_map_toInt (hrrp.trans (by decide))
  have hv' : s.v = #v[100, toWord (-200), 300, 0, 0, 0, 0, 1000, 5] :=
    vector_eq_of_map_toInt (hv.trans (by decide))
  have hstep : lattice s.rrp s.v (1000 : Sample).toInt =
      (-216, #v[toWord (-216), toWord (-8), toWord (-117), 284, 0, 0, 0, 0, 1009]) := by
    rw [hrrp', hv']
    exact lattice_workedExample
  exact ⟨_, exec_latstep 1000 s, congrArg Prod.fst hstep,
    (congrArg (fun a => a.2.toList.map BitVec.toInt) hstep).trans (by decide)⟩

/-- Narrowing twice is narrowing once (R82). -/
theorem toSample_wrap16 (x : Int) : toSample (wrap16 x) = toSample x :=
  BitVec.eq_of_toInt_eq (by rw [toSample_toInt, toSample_toInt, wrap16_wrap16])

/-- Where a sample range starts, its coefficients are computed (R103). -/
theorem blendIfDue_of_due {i : Nat} {r : Fin 4} (h : rangeStartingAt i = some r) (s : State) :
    s.blendIfDue i = s.larblend r := by
  rw [State.blendIfDue, h]

/-- Where none starts, the coefficients stay (R103). -/
theorem blendIfDue_of_not_due {i : Nat} (h : rangeStartingAt i = none) (s : State) : s.blendIfDue i = s := by
  rw [State.blendIfDue, h]

/-- Only samples 0, 13, 27 and 40 start a range (R103). -/
theorem rangeStartingAt_eq_none {i : Nat} (h0 : i ≠ 0) (h13 : i ≠ 13) (h27 : i ≠ 27) (h40 : i ≠ 40) :
    rangeStartingAt i = none := by
  rw [rangeStartingAt, if_neg h0, if_neg h13, if_neg h27, if_neg h40]

/-- One sample of `STSYN`: a lattice step with the coefficients in force, its output narrowed (R103). -/
theorem synthSample_eq (i : Fin 160) (s : State) :
    synthSample i s = { s with
      rrp := (s.blendIfDue i).rrp
      v := (lattice (s.blendIfDue i).rrp s.v (s.excAt ⟨120 + i.val, by omega⟩)).2
      pcm := s.pcm.set i (toSample (lattice (s.blendIfDue i).rrp s.v (s.excAt ⟨120 + i.val, by omega⟩)).1) } := by
  obtain ⟨q, hq⟩ := blendIfDue_frame s i
  simp only [synthSample, latstep_eq, hq, State.setPcm, toSample_wrap16]

/-- `STSYN` as its sequence of states, one per sample, none of which changes more than `V`, `RRP` and
`PCM` (R103). -/
theorem stsyn_sequence (s : State) :
    ∃ seq : Nat → State, seq 0 = s ∧ seq 160 = s.stsyn ∧
      (∀ i : Fin 160, seq (i + 1) = synthSample i (seq i)) ∧
      ∀ i ≤ 160, ∃ w q o, seq i = { s with v := w, rrp := q, pcm := o } := by
  obtain ⟨seq, hstart, hstep, hend⟩ := forUp_sequence 160 (fun i h => synthSample ⟨i, h⟩) s
  refine ⟨seq, hstart, hend, fun i => hstep i i.isLt, fun i => ?_⟩
  induction i with
  | zero => exact fun _ => ⟨_, _, _, hstart⟩
  | succ i ih =>
    intro hi
    obtain ⟨w, q, o, hseq⟩ := ih (by omega)
    rw [hstep i hi, synthSample_eq, hseq]
    exact ⟨_, _, _, rfl⟩

/-- Settles O16: each state of the sequence comes from the one before by the blend that is due and one
`LATSTEP`. -/
theorem stsynIsThePerSampleRecurrence : Obligations.StsynIsThePerSampleRecurrence := by
  intro s
  obtain ⟨seq, hstart, hend, hstep, hframe⟩ := stsyn_sequence s
  obtain ⟨w, q, o, hlast⟩ := hframe 160 le_rfl
  refine ⟨s.stsyn, seq, rfl, ?_, hstart, hend, fun i => ?_⟩
  · rw [← hend, hlast]
  obtain ⟨w, q, o, hseq⟩ := hframe i i.isLt.le
  obtain ⟨q', hblend⟩ := blendIfDue_frame (seq i) i
  have due : ∀ r, rangeStartingAt i = some r → exec (.larblend r) (seq i) = .next ((seq i).blendIfDue i) :=
    fun r hr => by rw [blendIfDue_of_due hr]; rfl
  refine ⟨(seq i).blendIfDue i, _, fun h => due 0 (by rw [h]; rfl), fun h => due 1 (by rw [h]; rfl),
    fun h => due 2 (by rw [h]; rfl), fun h => due 3 (by rw [h]; rfl),
    fun h0 h13 h27 h40 => blendIfDue_of_not_due (rangeStartingAt_eq_none h0 h13 h27 h40) _,
    exec_latstep _ _, ?_⟩
  have hin : (seq i).excAt ⟨120 + i.val, by omega⟩ = (s.exc[120 + i.val]).toInt := by
    rw [hseq]
    rfl
  simp only [hstep, synthSample_eq, hin, hblend]
  simp only [hseq, toSample]

/-- With no input and nothing in the memory, the lattice puts out nothing and its memory stays 0, whatever
the coefficients (R104). -/
theorem lattice_silent (rrp : Vector Word 8) :
    lattice rrp (Vector.replicate 9 0) 0 = (0, Vector.replicate 9 0) := by
  have hstages : forDown 8 (fun i h => latticeStage rrp ⟨i, h⟩) (0, Vector.replicate 9 0) =
      (0, Vector.replicate 9 0) := by
    refine forDown_induct (fun _ a => a = (0, Vector.replicate 9 0)) 8 _ _ rfl ?_
    rintro i hi _ rfl
    simp [latticeStage, wrap32, toWord]
  rw [lattice, hstages]
  decide

/-- `STSYN` from an empty memory on no excitation: zeros, and the memory still empty (R104). -/
theorem stsyn_silent {s : State} (hexc : ∀ i : Fin 160, s.exc[120 + i.val] = 0)
    (hv : s.v = Vector.replicate 9 0) :
    s.stsyn.v = Vector.replicate 9 0 ∧ ∀ i : Fin 160, s.stsyn.pcm[i] = 0 := by
  have key := forUp_induct (fun n t => t.exc = s.exc ∧ t.v = Vector.replicate 9 0 ∧
    ∀ i : Fin 160, i.val < n → t.pcm[i] = 0) 160 (fun i h => synthSample ⟨i, h⟩) s ⟨rfl, hv, nofun⟩ ?_
  · exact ⟨key.2.1, fun i => key.2.2 i i.isLt⟩
  · rintro n hn t ⟨hexc', hv', hpcm⟩
    have hin : t.excAt ⟨120 + n, by omega⟩ = 0 := by
      rw [State.excAt, hexc']
      exact congrArg BitVec.toInt (hexc ⟨n, hn⟩)
    rw [synthSample_eq, hin, hv', lattice_silent]
    refine ⟨hexc', rfl, fun i hi => ?_⟩
    obtain heq | hne := eq_or_ne i.val n
    · simp [heq, toSample]
    · have := hpcm i (by omega)
      simpa [hne.symm]

/-- Settles O17: `V[8]` does not matter to `STSYN`, so it may be taken to be 0 as well. -/
theorem silentLatticeStaysSilent : Obligations.SilentLatticeStaysSilent := by
  intro s hexc hv
  have hmem : s.v = (Vector.replicate 9 (0 : Word)).set 8 s.v[8] := by
    refine Vector.ext fun j hj => ?_
    obtain rfl | hne := eq_or_ne j 8
    · simp
    · have := hv ⟨j, by omega⟩
      simpa [hne.symm]
  have halike := stsyn_alike (s := { s with v := Vector.replicate 9 0 }) (s' := s)
    ⟨rfl, rfl, rfl, ⟨_, hmem⟩, nofun, nofun, nofun⟩
  obtain ⟨hmem0, hpcm0⟩ := stsyn_silent (s := { s with v := Vector.replicate 9 0 }) hexc rfl
  have hpcm := pcm_ext fun i => halike.pcm i i.isLt
  refine ⟨s.stsyn, rfl, ?_, ?_⟩
  · rw [← hpcm]
    exact hpcm0
  · rw [← halike.vDone (by decide), hmem0]
    simp

/-- `STSYN` keeps `EXC` (R103). -/
theorem stsyn_exc (s : State) : s.stsyn.exc = s.exc := by
  obtain ⟨w, q, o, hs⟩ := stsyn_frame s
  rw [hs]

/-- The blend that is due neither reads nor writes `EXC` (R100). -/
theorem blendIfDue_withExc (s : State) (e : Vector Sample 280) (i : Nat) :
    State.blendIfDue { s with exc := e } i = { s.blendIfDue i with exc := e } := by
  cases hdue : rangeStartingAt i with
  | none => rw [blendIfDue_of_not_due hdue, blendIfDue_of_not_due hdue]
  | some r =>
    rw [blendIfDue_of_due hdue, blendIfDue_of_due hdue, larblend_eq, larblend_eq]
    rfl

/-- `STSYN` reads no sample of the carried region `EXC[0..119]` (R103). -/
theorem stsyn_withExc (s : State) {e : Vector Sample 280}
    (he : ∀ i : Fin 160, e[120 + i.val] = s.exc[120 + i.val]) :
    State.stsyn { s with exc := e } = { s.stsyn with exc := e } := by
  refine (forUp_related (fun a b => a = { b with exc := e } ∧ b.exc = s.exc) 160
    (fun i h => synthSample ⟨i, h⟩) (fun i h => synthSample ⟨i, h⟩) _ s ⟨rfl, rfl⟩ ?_).1
  rintro i hi _ t ⟨rfl, hexc⟩
  have hin : State.excAt { t with exc := e } ⟨120 + i, by omega⟩ = t.excAt ⟨120 + i, by omega⟩ := by
    simp only [State.excAt, hexc]
    exact congrArg BitVec.toInt (he ⟨i, hi⟩)
  rw [synthSample_eq, synthSample_eq, hin, blendIfDue_withExc]
  exact ⟨rfl, hexc⟩

/-- `DEEMPH` neither reads nor writes `EXC` (R120). -/
theorem deemph_withExc (s : State) (e : Vector Sample 280) :
    State.deemph { s with exc := e } = { s.deemph with exc := e } :=
  forUp_commutes (g := fun t : State => { t with exc := e }) (body := fun i h => deemphSample ⟨i, h⟩)
    (fun _ _ _ => rfl) s

/-- `HISTSHIFT` writes in `EXC` what `EXC` alone determines (R130). -/
theorem histshift_eq_of_exc {s t : State} (h : t.exc = s.exc) :
    t.histshift = { t with exc := s.histshift.exc } := by
  obtain ⟨e, he⟩ := histshift_frame t
  rw [← histshift_exc_congr h, he]

/-- The samples `STSYN` reads, `EXC[120..279]`, are not written by `HISTSHIFT` (R130). -/
theorem histshift_exc_kept (s : State) (i : Fin 160) : s.histshift.exc[120 + i.val] = s.exc[120 + i.val] := by
  have h := histshift_excAt s ⟨120 + i.val, by omega⟩
  rw [dif_neg (by simp only; omega)] at h
  exact BitVec.eq_of_toInt_eq h

/-- `HISTSHIFT` and `STSYN` commute (47_orchestrator.md). -/
theorem stsyn_histshift (s : State) : s.histshift.stsyn = s.stsyn.histshift := by
  rw [histshift_eq_of_exc (stsyn_exc s), ← stsyn_withExc s (histshift_exc_kept s), ← histshift_eq_of_exc rfl]

/-- `HISTSHIFT` and `DEEMPH` commute (47_orchestrator.md). -/
theorem deemph_histshift (s : State) : s.histshift.deemph = s.deemph.histshift := by
  obtain ⟨⟨o, hd⟩, -⟩ := deemph_spec s
  have hexc : s.deemph.exc = s.exc := by rw [hd]
  rw [histshift_eq_of_exc hexc, ← deemph_withExc, ← histshift_eq_of_exc rfl]

/-- Settles O38: `HISTSHIFT` moves past `STSYN`, and then past `DEEMPH`. -/
theorem histshiftMayRunAfterTheFilters : Obligations.HistshiftMayRunAfterTheFilters := by
  intro s
  refine ⟨s.histshift.stsyn, s.histshift.stsyn.deemph, rfl, ?_, rfl, ?_⟩
  · rw [stsyn_histshift]
    rfl
  · rw [stsyn_histshift, deemph_histshift]
    rfl

end Sys2Proof.Machine

/-! Long-term synthesis run alone (44_long_term_synth.md): the window it scales, and what it keeps. -/

namespace Sys2Proof.Machine

/-- Settles O18: a sample of the subframe is its scaled lagged sample, and any other is the one before. -/
theorem ltsynScalesTheLaggedWindow : Obligations.LtsynScalesTheLaggedWindow := by
  intro k lag g s
  refine ⟨s.ltsyn k lag g, rfl, ?frame, ?window, ?others⟩
  case frame =>
    obtain ⟨e, he⟩ := ltsyn_frame s k lag g
    rw [he]
  case window =>
    intro n l hn hl
    obtain rfl : l = clampLag lag := hl
    have hwrite := ltsyn_excAt_writePos s k lag g n hn
    rw [roundMul_def] at hwrite
    exact hwrite
  case others =>
    intro a ha
    rw [ltsyn_excAt, dif_neg (by omega)]

end Sys2Proof.Machine

/-! The residual reconstructor run alone (45_apcm.md): the pulses it adds, and what it keeps. -/

namespace Sys2Proof.Machine

open Sys2Proof.Rules

/-- The residual widths before pulse j, as R66's sum and as the reader meets them. -/
theorem residualBits_eq_pulseBits (m : Mode) (k : Fin 4) {j : Nat} (hj : j ≤ 13) :
    residualBits m k j = pulseBits m k j := by
  induction j with
  | zero => rfl
  | succ j ih =>
    rw [pulseBits_succ m k hj, ← ih (by omega), residualBits, residualBits,
      ← List.take_append_getElem (by simpa using hj)]
    simp

/-- The entry of a row of 2^w levels at a w-bit coded value (R117). -/
theorem getElem?_row {w x : Nat} (row : Vector Level (2 ^ w)) (hx : x < 2 ^ w) :
    row[x]? = some row[(BitVec.ofNat w x).toFin] := by
  have hval : (BitVec.ofNat w x).toFin.val = x := Nat.mod_eq_of_lt hx
  simp only [Fin.getElem_fin, hval]
  exact Vector.getElem?_eq_getElem hx

/-- The level the model looks up is `REQUANT_TAB[w][x]`, for a w-bit coded value x (R117). -/
theorem requantIs_requantLevel (t : RequantTab) (w : Fin 4) {x : Nat} (hx : x < 2 ^ w.val) :
    requantIs t w x (requantLevel t w x) := by
  match w with
  | 0 => exact ⟨fun _ => getElem?_row (w := 0) t.w0 hx, nofun, nofun, nofun⟩
  | 1 => exact ⟨nofun, fun _ => getElem?_row (w := 1) t.w1 hx, nofun, nofun⟩
  | 2 => exact ⟨nofun, nofun, fun _ => getElem?_row (w := 2) t.w2 hx, nofun⟩
  | 3 => exact ⟨nofun, nofun, nofun, fun _ => getElem?_row (w := 3) t.w3 hx⟩

/-- The level of a 6-bit index is in that row of `DEQUANT_TAB` (R116). -/
theorem dequant_fin (s : State) (m : Fin 64) (w : Fin 4) (x : Nat) :
    s.dequant m w x = ((s.params.dequantTab[m])[requantLevel s.params.requantTab w x]).toInt := by
  have hm : (BitVec.ofNat 6 m).toFin.val = m.val := Nat.mod_eq_of_lt m.isLt
  simp only [State.dequant, Fin.getElem_fin, hm]

/-- Where the pulses are complete, so is the meaning of `APCMADD` (R116). -/
theorem execApcmadd_of_some {k : Fin 4} {o : BitVec 2} {s t : State} (h : s.apcmadd k o = some t) :
    execApcmadd k o s = .next t := by
  rw [execApcmadd, h]

/-- Settles O20: all thirteen pulses are done, each read behind the index and the widths before it. -/
theorem apcmaddAddsThirteenPulses : Obligations.ApcmaddAddsThirteenPulses := by
  intro k o s room
  rw [residualBits_thirteen] at room
  obtain ⟨t, ht⟩ := exists_apcmadd k o room
  obtain ⟨m, hm, done⟩ := apcmadd_eq_some ht
  have hm64 : m < 2 ^ 6 := readBits_lt hm
  refine ⟨t, execApcmadd_of_some ht, ?frame, ⟨⟨m, hm64⟩, hm, ?pulses⟩, ?others⟩
  case frame =>
    obtain ⟨e, he⟩ := done.frame
    rw [residualBits_thirteen, he]
  case pulses =>
    intro j
    obtain ⟨x, hx, hsample⟩ := done.pulse j j.isLt j.isLt
    refine ⟨x, _, ?_, requantIs_requantLevel _ _ (readBits_lt hx), ?_⟩
    · rw [field, residualBits_eq_pulseBits _ _ j.isLt.le, cursor, Nat.add_assoc, ← Nat.add_assoc s.bitpos]
      exact hx
    · rw [dequant_fin _ ⟨m, hm64⟩] at hsample
      exact hsample
  case others =>
    intro a ha
    exact done.rest a fun j hj _ => ha ⟨j, hj⟩

end Sys2Proof.Machine

/-! The de-emphasis filter run alone (46_deemphasis.md): its recurrence, and where the accumulator rests on
zero input. -/

namespace Sys2Proof.Machine

/-- The recurrence in the terms of R120. -/
theorem msrNext_def (m x : Int) : msrNext m x = clip16 (x + (m * 28180 + 16384) / 32768) := by
  rw [msrNext, roundMul_def]

/-- The masked output in the terms of R120. -/
theorem pcmOut_def (m : Int) : pcmOut m = clip16 (m * 2) - clip16 (m * 2) % 8 := rfl

/-- The register `MSR` after a block holds the whole accumulator: nothing is lost in its 16 bits (R25). -/
theorem deemph_msr_toInt (s : State) : s.deemph.msr.toInt = msrBefore s 160 := by
  obtain ⟨⟨o, hd⟩, -⟩ := deemph_spec s
  have hrange := msrBefore_range s 160
  rw [hd, toSample_toInt, wrap16_of_fits hrange.1 hrange.2]

/-- Settles O22: the accumulators are the sequence `msrBefore`. -/
theorem deemphFiltersInPlace : Obligations.DeemphFiltersInPlace := by
  intro s
  obtain ⟨⟨o, hd⟩, hout⟩ := deemph_spec s
  refine ⟨s.deemph, msrBefore s, rfl, ?frame, rfl, deemph_msr_toInt s, fun i => ⟨?recurrence, ?output⟩⟩
  case frame => rw [hd]
  case recurrence =>
    rw [msrBefore_succ, msrNext_def]
    rfl
  case output => exact (hout i).trans (pcmOut_def _)

/-- On a sample of 0 the magnitude of the accumulator never grows, and stays the same at -3..3 alone (R123). -/
theorem abs_msrNext_zero {m : Int} (lo : -32768 ≤ m) (hi : m ≤ 32767) :
    |msrNext m 0| ≤ |m| ∧ (|msrNext m 0| = |m| → -3 ≤ m ∧ m ≤ 3) := by
  obtain ⟨hpos, hneg, hrest⟩ := msrNext_zero lo hi
  obtain h | h := le_total 0 m
  · rw [abs_of_nonneg h, abs_of_nonneg (hpos h).1]
    exact ⟨(hpos h).2, hrest.mp⟩
  · rw [abs_of_nonpos h, abs_of_nonpos (hneg h).2]
    exact ⟨neg_le_neg (hneg h).1, fun e => hrest.mp (neg_injective e)⟩

/-- The output at a rest value: `MSR << 1` lies in -6..6 (R123). -/
theorem pcmOut_of_rest {m : Int} (lo : -3 ≤ m) (hi : m ≤ 3) : pcmOut m = if m < 0 then -8 else 0 := by
  rw [pcmOut_def, clip16_of_fits (by omega) (by omega)]
  split <;> omega

section
variable {s : State} (hpcm : ∀ i : Fin 160, s.pcm[i] = 0)
include hpcm

/-- The recurrence on zero input (R123). -/
theorem msrBefore_succ_of_silent {n : Nat} (hn : n < 160) : msrBefore s (n + 1) = msrNext (msrBefore s n) 0 := by
  rw [msrBefore_succ s ⟨n, hn⟩, State.pcmAt, hpcm]
  rfl

/-- On zero input the magnitude of the accumulator only decays (R123). -/
theorem abs_msrBefore_antitone : Antitone fun n => |msrBefore s n| := by
  refine antitone_nat_of_succ_le fun n => ?_
  by_cases hn : n < 160
  · rw [msrBefore_succ_of_silent hpcm hn]
    exact (abs_msrNext_zero (msrBefore_range s n).1 (msrBefore_range s n).2).1
  · rw [msrBefore, dif_neg hn]

/-- On zero input an accumulator at rest stays there for the whole block (R123). -/
theorem msrBefore_of_rest (lo : -3 ≤ s.msr.toInt) (hi : s.msr.toInt ≤ 3) {n : Nat} (hn : n ≤ 160) :
    msrBefore s n = s.msr.toInt := by
  induction n with
  | zero => rfl
  | succ n ih =>
    rw [msrBefore_succ_of_silent hpcm hn, ih (by omega)]
    exact (msrNext_zero (by omega) (by omega)).2.2.mpr ⟨lo, hi⟩

/-- An accumulator that a silent block leaves as it was is at rest: the first sample already kept its
magnitude, since no later one restores it (R123). -/
theorem rest_of_msrBefore_eq (h : msrBefore s 160 = s.msr.toInt) : -3 ≤ s.msr.toInt ∧ s.msr.toInt ≤ 3 := by
  obtain ⟨hle, hrest⟩ := abs_msrNext_zero (sample_range s.msr).1 (sample_range s.msr).2
  have hfirst : |msrBefore s 160| ≤ |msrNext s.msr.toInt 0| :=
    calc |msrBefore s 160| ≤ |msrBefore s (0 + 1)| := abs_msrBefore_antitone hpcm (by omega)
      _ = |msrNext s.msr.toInt 0| := congrArg abs (msrBefore_succ_of_silent hpcm (by omega))
  rw [h] at hfirst
  exact hrest (le_antisymm hle hfirst)

end

/-- Settles O24: zero input lets the magnitude only decay, and it decays at once outside -3..3. -/
theorem accumulatorRestsAtSevenValues : Obligations.AccumulatorRestsAtSevenValues := by
  intro s hpcm
  refine ⟨s.deemph, rfl, ?kept, ?output⟩
  case kept =>
    rw [← BitVec.toInt_inj, deemph_msr_toInt]
    exact ⟨rest_of_msrBefore_eq hpcm, fun ⟨lo, hi⟩ => msrBefore_of_rest hpcm lo hi le_rfl⟩
  case output =>
    intro lo hi i
    rw [← pcmOut_of_rest lo hi, ← msrBefore_of_rest hpcm lo hi i.isLt]
    exact (deemph_spec s).2 i

end Sys2Proof.Machine

/-! The fixed step list of a frame, run operation by operation (R126). -/

namespace Sys2Proof.Machine

open Sys2Proof.Rules

/-- Running one list of instructions after another (R18). -/
theorem execAll_append (is js : List Instr) (s : State) :
    execAll (is ++ js) s = (execAll is s).bind (execAll js) := by
  induction is generalizing s with
  | nil => rfl
  | cons i is ih =>
    rw [List.cons_append, execAll, execAll]
    cases exec i s with
    | next t => exact ih t
    | fault _ => rfl
    | refused _ => rfl

/-- The first instruction of a list, run where its next state is known. -/
theorem execAll_cons_of_next {i : Instr} {is : List Instr} {s t : State} (h : exec i s = .next t) :
    execAll (i :: is) s = execAll is t := by
  rw [execAll, h]

/-- One list of instructions for each iteration, one after another, is a loop that runs them. -/
theorem execAll_flatMap_finRange {n : Nat} (prog : Fin n → List Instr) (s : State) :
    execAll ((List.finRange n).flatMap prog) s = forUpM n (fun k h => execAll (prog ⟨k, h⟩)) s := by
  induction n with
  | zero => rfl
  | succ n ih =>
    rw [List.finRange_succ_last, List.flatMap_append, List.flatMap_map, execAll_append, forUpM_succ, ih,
      List.flatMap_singleton]
    rfl

/-- A loop whose every iteration follows the one of a loop that succeeds also succeeds, in a related state. -/
theorem exists_forUpM_related {σ τ : Type} (R : Nat → σ → τ → Prop) (n : Nat)
    (f : (i : Nat) → i < n → σ → Option σ) (g : (i : Nat) → i < n → τ → Option τ) {s u : σ} {t : τ}
    (done : forUpM n f s = some u) (start : R 0 s t)
    (carry : ∀ i (h : i < n) a a' b, R i a b → f i h a = some a' → ∃ b', g i h b = some b' ∧ R (i + 1) a' b') :
    ∃ w, forUpM n g t = some w ∧ R n u w := by
  induction n generalizing u with
  | zero => cases done; exact ⟨t, rfl, start⟩
  | succ n ih =>
    rw [forUpM_succ] at done
    obtain ⟨a, ha, hu⟩ := Option.bind_eq_some_iff.mp done
    obtain ⟨b, hb, hab⟩ := ih _ _ ha fun i h => carry i (Nat.lt_succ_of_lt h)
    obtain ⟨w, hw, huw⟩ := carry n (Nat.lt_succ_self n) a u b hab hu
    exact ⟨w, by rw [forUpM_succ, hb]; exact hw, huw⟩

/-- A state with another value in the model's own result register, which no operation reads (log entry 8). -/
def State.returning (s : State) (r : Int) : State :=
  { s with ret := r }

theorem getBits_returning (s : State) (r : Int) (n : Nat) :
    (s.returning r).getBits n = (s.getBits n).map fun vt => (vt.1, vt.2.returning r) := by
  rw [State.getBits, State.getBits, Option.map_map]
  rfl

theorem ltsyn_returning (s : State) (r : Int) (k : Fin 4) (lag : Nat) (g : BitVec 16) :
    (s.returning r).ltsyn k lag g = (s.ltsyn k lag g).returning r := by
  rw [State.ltsyn, State.ltsyn]
  apply forUp_commutes (g := (State.returning · r))
  exact fun _ _ _ => rfl

theorem apcmPulse_returning (k : Fin 4) (o : BitVec 2) (m : Nat) (r : Int) (j : Nat) (h : j < 13)
    (s : State) : apcmPulse k o m j h (s.returning r) = (apcmPulse k o m j h s).map (State.returning · r) := by
  simp only [apcmPulse, getBits_returning, Option.map_map]
  rfl

theorem apcmadd_returning (s : State) (r : Int) (k : Fin 4) (o : BitVec 2) :
    (s.returning r).apcmadd k o = (s.apcmadd k o).map (State.returning · r) := by
  rw [State.apcmadd, State.apcmadd, getBits_returning, Option.bind_map, Option.map_bind]
  exact congrArg _ (funext fun mt => forUpM_commutes (apcmPulse_returning k o mt.1 r) mt.2)

/-- `LTSYN` clamps its lag itself, so it does the same with the clamped lag (R110, R111). -/
theorem ltsyn_clampLag (s : State) (k : Fin 4) (lag : Nat) (g : BitVec 16) :
    s.ltsyn k (clampLag lag) g = s.ltsyn k lag g := by
  simp only [State.ltsyn, readPos, clampLag_clampLag]

/-- The lag, the gain index and the offset of a subframe record stand at the cursor (R64). -/
structure RecordAtCursor (s : State) (f : Subframe) : Prop where
  lag  : readBits s.frameIn (cursor s) 7 = some f.lag
  gain : readBits s.frameIn (cursor s + 7) 2 = some f.gain
  off  : readBits s.frameIn (cursor s + 7 + 2) 2 = some f.off

/-- One subframe on the fields of its record (R129). -/
theorem subframe_of_record {s : State} {f : Subframe} (h : RecordAtCursor s f) (k : Fin 4) :
    s.subframe k = (State.ltsyn { s with bitpos := s.bitpos + 7 + 2 + 2 } k f.lag (s.gain f.gain)).apcmadd k
      (BitVec.ofNat 2 f.off) := by
  have hlag : s.getBits 7 = _ := getBits_eq_some.mpr ⟨h.lag, rfl⟩
  have hgain : State.getBits { s with bitpos := s.bitpos + 7 } 2 = _ := getBits_eq_some.mpr ⟨h.gain, rfl⟩
  have hoff : State.getBits { s with bitpos := s.bitpos + 7 + 2 } 2 = _ := getBits_eq_some.mpr ⟨h.off, rfl⟩
  rw [State.subframe, hlag, Option.bind_some, hgain, Option.bind_some, hoff, Option.bind_some]
  rfl

/-- The operations of a subframe record leave what the subframe leaves, with the offset read last as the
result (R129). -/
theorem execAll_subframeProgram {s u : State} {k : Fin 4} {f : Subframe} (h : RecordAtCursor s f)
    (hu : s.subframe k = some u) (r : Int) :
    execAll (subframeProgram s.params k f) (s.returning r) = some (u.returning f.off) := by
  have hlag : exec (.getBits 7) (s.returning r) = .next ({ s with bitpos := s.bitpos + 7 }.returning f.lag) :=
    exec_getBits_of_readBits h.lag
  have hgain : exec (.getBits 2) ({ s with bitpos := s.bitpos + 7 }.returning f.lag) =
      .next ({ s with bitpos := s.bitpos + 7 + 2 }.returning f.gain) := exec_getBits_of_readBits h.gain
  have hoff : exec (.getBits 2) ({ s with bitpos := s.bitpos + 7 + 2 }.returning f.gain) =
      .next ({ s with bitpos := s.bitpos + 7 + 2 + 2 }.returning f.off) := exec_getBits_of_readBits h.off
  have hltsyn : exec (.ltsyn k (clampLag f.lag) (s.gain f.gain))
        ({ s with bitpos := s.bitpos + 7 + 2 + 2 }.returning f.off) =
      .next ((State.ltsyn { s with bitpos := s.bitpos + 7 + 2 + 2 } k f.lag (s.gain f.gain)).returning f.off) := by
    rw [exec, execLtsyn, ltsyn_clampLag, ltsyn_returning]
  have hapcmadd : exec (.apcmadd k (BitVec.ofNat 2 f.off))
        ((State.ltsyn { s with bitpos := s.bitpos + 7 + 2 + 2 } k f.lag (s.gain f.gain)).returning f.off) =
      .next (u.returning f.off) := by
    refine execApcmadd_of_some ?_
    rw [apcmadd_returning, ← subframe_of_record h, hu, Option.map_some]
  rw [subframeProgram, execAll_cons_of_next hlag, execAll_cons_of_next hgain, execAll_cons_of_next hoff,
    ← State.gain, execAll_cons_of_next hltsyn, execAll_cons_of_next hapcmadd, execAll]

/-- The fields of a subframe record take its bits (R64, R66). -/
theorem sum_subWidths_eq_subframeBits (m : Mode) (k : Fin 4) : (subWidths m k).sum = subframeBits m k := by
  rw [sum_subWidths, subframeBits, pulseBits_eq_sum]

/-- The fields of a frame before record k, in every mode (R60, R63, R64). -/
theorem sum_take_fieldWidths (p : PadLead) (m : Mode) (k : Fin 4) :
    ((fieldWidths p m).take (9 + 17 * k)).sum = p.bits + 36 + subframesBits m k := by
  have htake : (fieldWidths p m).take (9 + 17 * k) =
      p.bits :: ((List.finRange 8).map larWidth ++ ((List.finRange 4).take k).flatMap (subWidths m)) := by
    fin_cases k <;> rfl
  have hrecords : (((List.finRange 4).take k).map (subframeBits m)).sum = subframesBits m k := by
    fin_cases k <;> simp [subframesBits, List.finRange, Nat.add_assoc]
  rw [htake, List.sum_cons, List.sum_append, sum_larWidths, ← hrecords, List.flatMap_def, List.sum_flatten,
    List.map_map, Function.comp_def, Nat.add_assoc]
  simp only [sum_subWidths_eq_subframeBits]

/-- Record k of a frame begins with the lag, the gain index and the offset, in every mode (R64). -/
theorem drop_fieldWidths (p : PadLead) (m : Mode) (k : Fin 4) :
    ∃ ws, (fieldWidths p m).drop (9 + 17 * k) = 7 :: 2 :: 2 :: ws := by
  fin_cases k <;> exact ⟨_, rfl⟩

/-- The width and the position of the lag, the gain index and the offset of record k among the fields of a
frame, in every mode (R64). -/
theorem record_head_position (p : PadLead) (m : Mode) (k : Fin 4) (j : Fin 3) :
    (fieldWidths p m).getD (9 + 17 * k + j) 0 = recordWidth j ∧
      ((fieldWidths p m).take (9 + 17 * k + j)).sum =
        p.bits + 36 + subframesBits m k + recordStart j := by
  obtain ⟨ws, hws⟩ := drop_fieldWidths p m k
  rw [List.getD_eq_getElem?_getD, ← List.getElem?_drop, List.take_add, List.sum_append,
    sum_take_fieldWidths, hws]
  fin_cases j <;> exact ⟨rfl, rfl⟩

/-- The lag, the gain index and the offset of record k stand at its bits of the frame, in every mode
(R64). -/
theorem readBits_record_head {p : PadLead} {m : Mode} {bytes : List Byte} {f : Frame}
    (h : readFields bytes 0 (fieldWidths p m) = some f.values) (k : Fin 4) (j : Fin 3) :
    readBits bytes (p.bits + 36 + subframesBits m k + recordStart j) (recordWidth j) =
      some (f.sub[k].values.getD j 0) := by
  obtain ⟨hwidth, hstart⟩ := record_head_position p m k j
  have := readBits_of_readFields h (i := 9 + 17 * k + j) (by rw [length_fieldWidths]; omega)
  rwa [Nat.zero_add, hwidth, hstart, values_getD_sub f k (by omega)] at this

/-- A state holds a frame with the fields of f (R60). -/
def HoldsFrame (s : State) (f : Frame) : Prop :=
  readFields s.frameIn 0 (fieldWidths s.params.padLead s.cfgMode) = some f.values

/-- Where the cursor is at record k, that record's fields are the next to be read (R64). -/
theorem HoldsFrame.recordAtCursor {s : State} {f : Frame} (h : HoldsFrame s f) (k : Fin 4)
    (hbits : s.bitpos = 36 + subframesBits s.cfgMode k) : RecordAtCursor s f.sub[k] := by
  have hcursor : cursor s = s.params.padLead.bits + 36 + subframesBits s.cfgMode k := by
    rw [cursor, hbits, Nat.add_assoc]
  have hhead := readBits_record_head h k
  rw [← hcursor] at hhead
  exact ⟨hhead 0, hhead 1, hhead 2⟩

/-- Step 2 from s before record k: t in the loop over the subframes, w in the list of operations, where the
result register holds what the last `GETBITS` returned (log entry 8). -/
def InRecords (s : State) (k : Nat) (t w : State) : Prop :=
  (∃ e, t = { s with exc := e, bitpos := s.bitpos + subframesBits s.cfgMode k }) ∧ ∃ r, w = t.returning r

/-- One record (R129). -/
theorem InRecords.next {s t t' w : State} {f : Frame} {k : Nat} (h : HoldsFrame s f) (hbits : s.bitpos = 36)
    (hk : k < 4) (htw : InRecords s k t w) (ht : t.subframe ⟨k, hk⟩ = some t') :
    ∃ w', execAll (subframeProgram s.params ⟨k, hk⟩ f.sub[k]) w = some w' ∧ InRecords s (k + 1) t' w' := by
  obtain ⟨⟨e, rfl⟩, r, rfl⟩ := htw
  have hrecord : RecordAtCursor { s with exc := e, bitpos := s.bitpos + subframesBits s.cfgMode k } f.sub[k] :=
    HoldsFrame.recordAtCursor (s := { s with exc := e, bitpos := s.bitpos + subframesBits s.cfgMode k }) h
      ⟨k, hk⟩ (by simp only [hbits])
  have hrun := execAll_subframeProgram hrecord ht r
  obtain ⟨e', rfl⟩ := subframe_frame ht
  exact ⟨_, hrun, ⟨e', by rw [subframesBits_succ _ hk, ← Nat.add_assoc]⟩, _, rfl⟩

/-- Step 2 of the list: the four records' operations leave what the four subframes leave, but for the
result (R126, R129). -/
theorem execAll_records {s u : State} {f : Frame} (h : HoldsFrame s f) (hbits : s.bitpos = 36)
    (hu : forUpM 4 (fun k hk (t : State) => t.subframe ⟨k, hk⟩) s = some u) :
    ∃ r, execAll ((List.finRange 4).flatMap fun k => subframeProgram s.params k f.sub[k]) s =
      some (u.returning r) := by
  have start : InRecords s 0 s s := ⟨⟨s.exc, rfl⟩, s.ret, rfl⟩
  obtain ⟨_, hw, -, r, rfl⟩ := exists_forUpM_related (InRecords s) 4 _ _ hu start
    fun k hk _ _ _ htw ht => htw.next h hbits hk ht
  exact ⟨r, (execAll_flatMap_finRange _ s).trans hw⟩

/-- Steps 3 to 6 of the list (R126). -/
theorem execAll_finish (s : State) : execAll [.histshift, .stsyn, .deemph, .lartoggle] s = some s.finishFrame :=
  rfl

/-- The result register is not among what steps 3 to 6 read (log entry 8). -/
theorem liveAlike_returning (s : State) (r : Int) : LiveAlike 280 s (s.returning r) :=
  ⟨rfl, rfl, rfl, rfl, rfl, rfl, rfl, ⟨s.v[8], eq_set_eight s.v⟩, fun _ _ => rfl, fun _ _ _ => rfl⟩

/-- Steps 3 to 6 keep the cursor (R126). -/
theorem finishFrame_bitpos (s : State) : s.finishFrame.bitpos = s.bitpos := by
  obtain ⟨e, w, q, o, m, hf⟩ := finishFrame_frame s
  rw [hf]

/-- The whole list of a frame leaves the decoder state, the samples and the cursor that the six steps of the
decode leave (R126). -/
theorem execAll_frameProgram {s u : State} {f : Frame} (h : HoldsFrame s f) (hbits : s.bitpos = 0)
    (hu : s.decodeSteps = some u) :
    ∃ w, execAll (frameProgram s.params f) s = some w ∧ SameDecoderState u w ∧ u.pcm = w.pcm ∧
      w.bitpos = u.bitpos := by
  obtain ⟨s1, h1, hfin⟩ := Option.bind_eq_some_iff.mp hu
  obtain ⟨s2, h2, rfl⟩ := Option.map_eq_some_iff.mp hfin
  have hlardec : exec .lardec s = .next s1 := execLardec_of_some h1
  obtain ⟨l, rfl⟩ := (lardec_eq_some h1).frame
  obtain ⟨r, hrecords⟩ := execAll_records (s := { s with lar := l, bitpos := s.bitpos + larBits 8 }) (f := f)
    h (by simp only [hbits, larBits_eight]) h2
  obtain ⟨hsame, hpcm⟩ := finishFrame_alike (liveAlike_returning s2 r)
  refine ⟨(s2.returning r).finishFrame, ?list, hsame, hpcm, ?cursor⟩
  case list =>
    rw [frameProgram, execAll_append, execAll_cons_of_next hlardec, hrecords, Option.bind_some, execAll_finish]
  case cursor =>
    rw [finishFrame_bitpos, finishFrame_bitpos]
    rfl

/-- The six steps advance the cursor by the payload (R27, R126). -/
theorem decodeSteps_bitpos {s u : State} (h : s.decodeSteps = some u) :
    u.bitpos = s.bitpos + payloadBits s.cfgMode := by
  obtain ⟨l, e, w, q, o, m, rfl⟩ := decodeSteps_frame h
  rfl

/-- Settles O31: the list's first two steps leave what the decode's leave but for the result register, which
steps 3 to 6 do not read. -/
theorem decodeRunsTheStepList : Obligations.DecodeRunsTheStepList := by
  intro frame s f hfsm hf
  obtain ⟨hread, -⟩ := readFields_of_decodeFrame hf
  have hlen : longEnough s frame := by
    have := readFields_room hread (Nat.zero_le _)
    rwa [Nat.zero_add, sum_fieldWidths] at this
  obtain ⟨u, hu, he⟩ := exec_decodeFrame_of_longEnough hfsm hlen
  obtain ⟨w, hlist, hsame, hpcm, hcursor⟩ := execAll_frameProgram (s := s.startFrame frame) hread rfl hu
  obtain ⟨-, hmode, hlar, hslot, hv, hexc, hmsr⟩ := hsame
  have hbits := decodeSteps_bitpos hu
  rw [State.startFrame_bitpos, State.startFrame_cfgMode, Nat.zero_add] at hbits
  exact ⟨u.endFrame, w, he, hlist, hcursor.trans hbits, rfl, rfl, hmode, hlar, hslot, hv, hexc, hmsr, hpcm⟩

end Sys2Proof.Machine

/-! The orchestrator's own operations and a `DECODE_FRAME` that completes or fails (47_orchestrator.md,
60_exceptions.md). -/

namespace Sys2Proof.Machine

open Sys2Proof.Rules

/-- Settles O21: all `HISTSHIFT` changes is `EXC`, and there it does to each sample what R130 says. -/
theorem histshiftCopiesTheTail : Obligations.HistshiftCopiesTheTail := by
  intro s
  refine ⟨s.histshift, rfl, ?frame, fun a => ⟨fun ha => ?copied, fun ha => ?kept⟩⟩
  case frame =>
    obtain ⟨e, he⟩ := histshift_frame s
    rw [he]
  case copied => rw [histshift_excAt, dif_pos ha]
  case kept => rw [histshift_excAt, dif_neg (Nat.not_lt.mpr ha)]

/-- The other slot of the 1-bit index by cases (R22). -/
theorem otherSlot_eq_ite (slot : Slot) : otherSlot slot = if slot = 0 then 1 else 0 := by
  revert slot
  decide

/-- Settles O25: all `LARTOGGLE` writes is the other slot. -/
theorem lartoggleFlipsTheSlot : Obligations.LartoggleFlipsTheSlot := by
  intro s
  rw [← otherSlot_eq_ite]
  rfl

/-- Settles O10: the word is the free value of log entry 5. -/
theorem reflectOfTheLeastWordCompletes : Obligations.ReflectOfTheLeastWordCompletes :=
  fun _ => ⟨reflect (BitVec.ofInt 32 (-(2 ^ 31))), rfl⟩

/-- Settles O30: in Ready the six steps of a long enough frame complete, and they write none of this. -/
theorem completeFrameDecodesWithOk : Obligations.CompleteFrameDecodesWithOk := by
  intro frame s hfsm hlen
  obtain ⟨u, hu, he⟩ := exec_decodeFrame_of_longEnough hfsm hlen
  obtain ⟨l, e, w, q, o, m, rfl⟩ := decodeSteps_frame hu
  exact ⟨_, he, rfl, rfl, rfl, rfl, rfl⟩

/-- A command that fails outside Decoding changes nothing but the response (R141). -/
theorem raise_eq_respond {s : State} (h : s.fsm ≠ .decoding) (r : Resp) : s.raise r = s.respond r := by
  rw [State.raise, if_neg h]
  rfl

/-- A `DECODE_FRAME` in Idle changes nothing but the response (R141, R143). -/
theorem exec_decodeFrame_of_idle {s : State} (hfsm : s.fsm = .idle) (frame : List Byte) :
    exec (.decodeFrame frame) s = .next (s.respond .noSession) := by
  rw [← raise_eq_respond (by rw [hfsm]; nofun)]
  exact execDecodeFrame_of_idle hfsm frame

/-- A `DECODE_FRAME` in Ready whose input is too short changes nothing but the response (R141, R142). -/
theorem exec_decodeFrame_of_short {s : State} {frame : List Byte} (hfsm : s.fsm = .ready)
    (short : ¬ longEnough s frame) : exec (.decodeFrame frame) s = .next (s.respond .truncatedInput) := by
  rw [← raise_eq_respond (by rw [hfsm]; nofun)]
  exact execDecodeFrame_of_short hfsm (Nat.lt_of_not_le short)

/-- Settles O28: the session is tested first, then the length, and a frame that passes both completes. -/
theorem failedDecodeChangesNothing : Obligations.FailedDecodeChangesNothing := by
  intro frame s
  refine ⟨fun hfsm => exec_decodeFrame_of_idle hfsm frame,
    fun hfsm short => exec_decodeFrame_of_short hfsm (Nat.not_le.mpr short), fun hfsm long => ?_⟩
  obtain ⟨t, he, hok, -⟩ := completeFrameDecodesWithOk frame s hfsm long
  exact ⟨t, he, hok⟩

/-- A decode that completes does not depend on the response before it (R32). -/
theorem exec_decodeFrame_respond {s : State} {frame : List Byte} (hfsm : s.fsm = .ready)
    (hlen : longEnough s frame) (r : Resp) :
    exec (.decodeFrame frame) (s.respond r) = exec (.decodeFrame frame) s := by
  have hstart : LiveAlike 120 ((s.respond r).startFrame frame) (s.startFrame frame) :=
    startFrame_alike ⟨rfl, rfl, rfl, rfl, rfl, rfl, rfl⟩ rfl fun _ _ _ => rfl
  obtain ⟨t, hafter, halone⟩ :=
    exec_decodeFrame_eq_of_alike hstart hfsm hfsm hlen hlen rfl rfl
  rw [hafter, halone]

/-- Settles O29: the failed decode leaves its response, on which the next one does not depend. -/
theorem failedDecodeLeavesNoTrace : Obligations.FailedDecodeLeavesNoTrace := by
  intro bad good s hfsm hbad hgood
  obtain ⟨u, hu, hok, -⟩ := completeFrameDecodesWithOk good s hfsm hgood
  exact ⟨s.respond .truncatedInput, u, exec_decodeFrame_of_short hfsm hbad,
    (exec_decodeFrame_respond hfsm hgood _).trans hu, hu, hok⟩

end Sys2Proof.Machine

/-! Sessions, the hard reset and Idle (70_reset_and_hazards.md), and the response to each command
(60_exceptions.md). -/

namespace Sys2Proof.Machine

open Sys2Proof.Rules

/-- `SESSION_OPEN` with no command in progress (R160). -/
theorem exec_sessionOpen {s : State} (hfsm : s.fsm ≠ .decoding) (mode : Mode) :
    exec (.sessionOpen mode) s = .next ((s.freshSession mode).discardWork.respond .ok) := by
  obtain ⟨hbusy, -⟩ | ⟨-, he⟩ := execSessionOpen_cases mode s
  · exact absurd hbusy hfsm
  · exact he

/-- `SESSION_CLOSE` in Idle (R162). -/
theorem exec_sessionClose_of_idle {s : State} (hfsm : s.fsm = .idle) :
    exec .sessionClose s = .next (s.respond .ok) := by
  simp only [exec, execSessionClose, hfsm]

/-- `SESSION_CLOSE` in Ready (R162). -/
theorem exec_sessionClose_of_ready {s : State} (hfsm : s.fsm = .ready) :
    exec .sessionClose s = .next (s.discardSession.discardWork.respond .ok) := by
  simp only [exec, execSessionClose, hfsm]

/-- Settles O26: a session is opened from Idle and from Ready alike, and every word of it is 0. -/
theorem sessionOpenZeroesTheDecoderState : Obligations.SessionOpenZeroesTheDecoderState := by
  intro mode s hfsm
  have accepts : s.fsm ≠ .decoding := by rcases hfsm with h | h <;> rw [h] <;> nofun
  refine ⟨_, exec_sessionOpen accepts mode, rfl, rfl, rfl, ?lar, rfl, ?v, ?exc, rfl, rfl, rfl, rfl⟩
  case lar => simp [State.larAt]
  case v => simp
  case exc => simp

/-- Settles O27: what `SESSION_CLOSE` does in Ready and in Idle. -/
theorem sessionCloseEndsTheSession : Obligations.SessionCloseEndsTheSession :=
  fun _ => ⟨fun hfsm => ⟨_, exec_sessionClose_of_ready hfsm, rfl, rfl, rfl, rfl, rfl⟩, exec_sessionClose_of_idle⟩

/-- Settles O58: the reset state is written out in the model. -/
theorem resetIsIdle : Obligations.ResetIsIdle := ⟨rfl, rfl, rfl⟩

/-- Settles O40: the reset state is in Idle. -/
theorem resetMeetsTheInvariant : Obligations.ResetMeetsTheInvariant := inv_of_idle resetIsIdle.1

/-- Settles O44: a step takes the hard reset input in any state, and it writes none of the ports. -/
theorem hardResetPutsTheBlockInIdle : Obligations.HardResetPutsTheBlockInIdle :=
  fun _ _ hin => ⟨_, step_of_hardReset hin, rfl, rfl, rfl, rfl, rfl⟩

/-- In Idle a command that leaves Idle is SESSION_OPEN, and it leaves it for Ready (R161). -/
theorem exec_decode_leaves_idle {r : Request} {s t : State} (hfsm : s.fsm = .idle)
    (h : exec (decode r) s = .next t) (leaves : t.fsm ≠ .idle) : r.cmd = .sessionOpen ∧ t.fsm = .ready := by
  obtain ⟨cmd, mode, bytes⟩ := r
  cases cmd with
  | sessionOpen =>
    cases (exec_sessionOpen (by rw [hfsm]; nofun) mode).symm.trans h
    exact ⟨rfl, rfl⟩
  | decodeFrame =>
    cases (exec_decodeFrame_of_idle hfsm bytes).symm.trans h
    exact absurd hfsm leaves
  | sessionClose =>
    cases (exec_sessionClose_of_idle hfsm).symm.trans h
    exact absurd hfsm leaves

/-- Settles O42: a wait and the hard reset end in Idle, so the step took a command, and it was
SESSION_OPEN. -/
theorem onlySessionOpenLeavesIdle : Obligations.OnlySessionOpenLeavesIdle := by
  intro s t hfsm h leaves
  obtain ⟨hs, -⟩ | ⟨rest, -, hs⟩ | ⟨⟨cmd, mode, bytes⟩, rest, hin, -, hs⟩ := step_cases s
  · cases hs.symm.trans h
    exact absurd hfsm leaves
  · cases hs.symm.trans h
    exact absurd rfl leaves
  · obtain ⟨rfl, hready⟩ := exec_decode_leaves_idle (s := { s with inputs := rest }) hfsm (hs.symm.trans h) leaves
    exact ⟨hready, mode, bytes, rest, hin⟩

/-- Two states look alike to the host: all the ports and `FSM` are equal, and in a session so is the decoder
state (R161). -/
def LookAlike (t t' : State) : Prop :=
  t.fsm = t'.fsm ∧ t.resp = t'.resp ∧ t.pcm = t'.pcm ∧ t.inputs = t'.inputs ∧ t.params = t'.params ∧
    (t.fsm = .ready → SameDecoderState t t')

/-- In Idle a state's ports are all that can be told of it (R161). -/
theorem lookAlike_of_idle {t t' : State} (hfsm : t.fsm = .idle) (hfsm' : t'.fsm = .idle)
    (hresp : t.resp = t'.resp) (hpcm : t.pcm = t'.pcm) (hin : t.inputs = t'.inputs)
    (hparams : t.params = t'.params) : LookAlike t t' :=
  ⟨hfsm.trans hfsm'.symm, hresp, hpcm, hin, hparams, fun hready => nomatch hfsm.symm.trans hready⟩

/-- Every command the port selects takes Idle states with equal ports to states that look alike (R161). -/
theorem exec_decode_lookAlike {s s' : State} (hfsm : s.fsm = .idle) (hfsm' : s'.fsm = .idle)
    (hpcm : s.pcm = s'.pcm) (hin : s.inputs = s'.inputs) (hparams : s.params = s'.params) (r : Request) :
    ∃ t t', exec (decode r) s = .next t ∧ exec (decode r) s' = .next t' ∧ LookAlike t t' := by
  obtain ⟨cmd, mode, bytes⟩ := r
  cases cmd with
  | sessionOpen =>
    exact ⟨_, _, exec_sessionOpen (by rw [hfsm]; nofun) mode, exec_sessionOpen (by rw [hfsm']; nofun) mode,
      rfl, rfl, hpcm, hin, hparams, fun _ => ⟨rfl, rfl, rfl, rfl, rfl, rfl, rfl⟩⟩
  | decodeFrame =>
    exact ⟨_, _, exec_decodeFrame_of_idle hfsm bytes, exec_decodeFrame_of_idle hfsm' bytes,
      lookAlike_of_idle hfsm hfsm' rfl hpcm hin hparams⟩
  | sessionClose =>
    exact ⟨_, _, exec_sessionClose_of_idle hfsm, exec_sessionClose_of_idle hfsm',
      lookAlike_of_idle hfsm hfsm' rfl hpcm hin hparams⟩

/-- Settles O43: by what the step finds to accept; a session that is opened is fresh in both states. -/
theorem idleContentsCannotMatter : Obligations.IdleContentsCannotMatter := by
  intro s s' hfsm hfsm' hin hparams hpcm hresp
  cases hs : s.inputs with
  | nil =>
    exact ⟨s, s', step_of_no_input hs, step_of_no_input (hin ▸ hs),
      lookAlike_of_idle hfsm hfsm' hresp hpcm hin hparams⟩
  | cons i rest =>
    have hs' : s'.inputs = i :: rest := hin ▸ hs
    cases i with
    | hardReset =>
      exact ⟨_, _, step_of_hardReset hs, step_of_hardReset hs',
        lookAlike_of_idle rfl rfl hresp hpcm rfl hparams⟩
    | command r =>
      rw [step_of_command hs (by rw [hfsm]; nofun), step_of_command hs' (by rw [hfsm']; nofun)]
      exact exec_decode_lookAlike (s := { s with inputs := rest }) (s' := { s' with inputs := rest })
        hfsm hfsm' hpcm rfl hparams r

/-- The state after a command has its response: nothing is taken from what the host has yet to issue, no
command is in progress, and samples are delivered with the OK to a `DECODE_FRAME` alone (R135, R140). -/
structure Answered (s : State) (cmd : Cmd) (t : State) (c : Resp) : Prop where
  inputs : t.inputs = s.inputs
  resp   : t.resp = some c
  fsm    : t.fsm ≠ .decoding
  ok     : cmd ≠ .decodeFrame → c = .ok
  pcm    : cmd ≠ .decodeFrame ∨ c ≠ .ok → t.pcm = s.pcm

/-- A response that is all a command changes answers it (R141). -/
theorem answered_respond {s : State} (hfsm : s.fsm ≠ .decoding) (cmd : Cmd) {c : Resp}
    (hok : cmd ≠ .decodeFrame → c = .ok) : Answered s cmd (s.respond c) c :=
  ⟨rfl, rfl, hfsm, hok, fun _ => rfl⟩

/-- A `DECODE_FRAME` is answered, with samples only where it completes (R135, R142, R143). -/
theorem exec_decodeFrame_answered {s : State} (hfsm : s.fsm ≠ .decoding) (frame : List Byte) :
    ∃ t c, exec (.decodeFrame frame) s = .next t ∧ Answered s .decodeFrame t c := by
  cases h : s.fsm with
  | decoding => exact absurd h hfsm
  | idle => exact ⟨_, _, exec_decodeFrame_of_idle h frame, answered_respond hfsm _ (absurd rfl)⟩
  | ready =>
    by_cases hlen : longEnough s frame
    · obtain ⟨t, he, hok, hready, -, -, hin⟩ := completeFrameDecodesWithOk frame s h hlen
      exact ⟨t, .ok, he, hin, hok, by rw [hready]; nofun, fun _ => rfl, by simp⟩
    · exact ⟨_, _, exec_decodeFrame_of_short h hlen, answered_respond hfsm _ (absurd rfl)⟩

/-- SESSION_CLOSE is answered with OK and without samples (R135, R162). -/
theorem exec_sessionClose_answered {s : State} (hfsm : s.fsm ≠ .decoding) :
    ∃ t, exec .sessionClose s = .next t ∧ Answered s .sessionClose t .ok := by
  cases h : s.fsm with
  | decoding => exact absurd h hfsm
  | idle => exact ⟨_, exec_sessionClose_of_idle h, answered_respond hfsm _ fun _ => rfl⟩
  | ready => exact ⟨_, exec_sessionClose_of_ready h, rfl, rfl, nofun, fun _ => rfl, fun _ => rfl⟩

/-- Every command the port selects is answered (R135, R140). -/
theorem exec_decode_answered {s : State} (hfsm : s.fsm ≠ .decoding) (r : Request) :
    ∃ t c, exec (decode r) s = .next t ∧ Answered s r.cmd t c := by
  obtain ⟨cmd, mode, bytes⟩ := r
  cases cmd with
  | sessionOpen =>
    exact ⟨_, .ok, exec_sessionOpen hfsm mode, rfl, rfl, nofun, fun _ => rfl, fun _ => rfl⟩
  | decodeFrame => exact exec_decodeFrame_answered hfsm bytes
  | sessionClose =>
    obtain ⟨t, ht⟩ := exec_sessionClose_answered hfsm
    exact ⟨t, .ok, ht⟩

/-- Settles O48: the step runs the command, and each of the three commands is answered. -/
theorem everyCommandGetsOneResponse : Obligations.EveryCommandGetsOneResponse := by
  intro s r rest hin hfsm
  obtain ⟨t, c, he, done⟩ := exec_decode_answered (s := { s with inputs := rest }) hfsm r
  exact ⟨t, c, (step_of_command hin hfsm).trans he, done.inputs, done.resp, done.fsm, done.ok, done.pcm⟩

end Sys2Proof.Machine
